-- ==== Sys2Proof/Word.lean ====
section
/-! DEFINITION. The few types every other file is written in (spec: 00_scope.md R6 and R12). -/

namespace Sys2Proof

/-- A byte: the width of a register, of a memory cell, of an address, of the program counter and of
every instruction byte (R6: `XLEN` and `ALEN` are 8; R12: "an unsigned integer 0 to 255"). -/
abbrev Byte := BitVec 8

/-- The index of a general register: R0 to R7 (R21). -/
abbrev RegIndex := Fin 8

/-- The three-bit condition code FL (R29; decision D17, log entry 17): bit 0 is E, bit 1 is G, bit 2 is L. -/
abbrev FlagBits := BitVec 3

end Sys2Proof
end

