-- ==== Sys2Proof/Syntax.lean ====
section
/-! DEFINITION. The instruction set as syntax: thirteen instructions, one constructor for each row of the
opcode map (30_encoding.md R76), in the map's order. -/

namespace Sys2Proof

/-- Which operand byte of an instruction is meant: operand1 is byte 1, operand2 is byte 2 (R71, R152). -/
inductive OperandNo where
  | op1
  | op2
  deriving DecidableEq, Repr

/-- The number the spec's fault record gives an operand byte: 1 or 2 (R152). -/
def OperandNo.number : OperandNo → Nat
  | .op1 => 1
  | .op2 => 2

/-- An instruction. A register-index field is the whole operand byte, read as an unsigned number (R74: "The upper
five bits of the byte are significant"), so a field is a `Byte`; which bytes name a register is the check of
WellFormed.lean, and what an instruction does with one that names none is in its meaning (log entry 7). -/
inductive Instr where
  /-- HLT, format F0 (R140). -/
  | hlt
  /-- LDI a,imm, format F2RI (R111). -/
  | ldi (a imm : Byte)
  /-- PRN a, format F1 (R141). -/
  | prn (a : Byte)
  /-- ADD a,b, format F2RR (R112). -/
  | add (a b : Byte)
  /-- MUL a,b, format F2RR (R113). -/
  | mul (a b : Byte)
  /-- PUSH a, format F1 (R122). -/
  | push (a : Byte)
  /-- POP a, format F1 (R123). -/
  | pop (a : Byte)
  /-- CALL a, format F1 (R131). -/
  | call (a : Byte)
  /-- RET, format F0 (R132). -/
  | ret
  /-- CMP a,b, format F2RR (R114). -/
  | cmp (a b : Byte)
  /-- JMP a, format F1 (R133). -/
  | jmp (a : Byte)
  /-- JEQ a, format F1 (R134). -/
  | jeq (a : Byte)
  /-- JNE a, format F1 (R135). -/
  | jne (a : Byte)
  deriving DecidableEq, Repr

/-- The operand byte that names register `i`. -/
def regByte (i : RegIndex) : Byte := BitVec.ofNat 8 i.val

end Sys2Proof
end

