-- ==== Sys2Proof/WellFormed.lean ====
section
/-! DEFINITION. When an instruction's operand bytes are ones the spec calls legal: every register-index
field is 0 to 7 (30_encoding.md R74, R79). An immediate has no illegal value (R75, R79). -/

namespace Sys2Proof

/-- The register-index fields of an instruction, operand 1 before operand 2 (R71, R96). Byte 2 of LDI is an
immediate and is none of them. -/
def Instr.regFields : Instr → List (OperandNo × Byte)
  | .hlt => []
  | .ldi a _ => [(.op1, a)]
  | .prn a => [(.op1, a)]
  | .add a b => [(.op1, a), (.op2, b)]
  | .mul a b => [(.op1, a), (.op2, b)]
  | .push a => [(.op1, a)]
  | .pop a => [(.op1, a)]
  | .call a => [(.op1, a)]
  | .ret => []
  | .cmp a b => [(.op1, a), (.op2, b)]
  | .jmp a => [(.op1, a)]
  | .jeq a => [(.op1, a)]
  | .jne a => [(.op1, a)]

/-- The check itself, as a Boolean. -/
def Instr.wellFormed (i : Instr) : Bool :=
  i.regFields.all fun f => decide (f.2.toNat < 8)

/-- An instruction is well formed when each of its register-index fields names a register. -/
abbrev WellFormed (i : Instr) : Prop := i.wellFormed = true

end Sys2Proof
end

