-- ==== Sys2Proof/Decode.lean ====
section
/-! DEFINITION. Decoding the fetched bytes into an instruction, and the encoder written from the same table
(30_encoding.md R70 to R79). -/

namespace Sys2Proof

/-- The instruction formats (R71). -/
inductive Format where
  | f0
  | f1
  | f2rr
  | f2ri
  deriving DecidableEq, Repr

/-- How many operand bytes a format has (R70, R71). -/
def Format.operandCount : Format → Nat
  | .f0 => 0
  | .f1 => 1
  | .f2rr => 2
  | .f2ri => 2

/-- The format column of the opcode map (R76). -/
def Instr.format : Instr → Format
  | .hlt => .f0
  | .ldi _ _ => .f2ri
  | .prn _ => .f1
  | .add _ _ => .f2rr
  | .mul _ _ => .f2rr
  | .push _ => .f1
  | .pop _ => .f1
  | .call _ => .f1
  | .ret => .f0
  | .cmp _ _ => .f2rr
  | .jmp _ => .f1
  | .jeq _ => .f1
  | .jne _ => .f1

/-- The width in bytes: "Width is always 1 plus the operand count" (R70). -/
def Instr.width (i : Instr) : Nat := 1 + i.format.operandCount

/-- The value column of the opcode map (R76). -/
def Instr.opcode : Instr → Byte
  | .hlt => 0x01#8
  | .ldi _ _ => 0x82#8
  | .prn _ => 0x47#8
  | .add _ _ => 0xA0#8
  | .mul _ _ => 0xA2#8
  | .push _ => 0x45#8
  | .pop _ => 0x46#8
  | .call _ => 0x50#8
  | .ret => 0x11#8
  | .cmp _ _ => 0xA7#8
  | .jmp _ => 0x54#8
  | .jeq _ => 0x55#8
  | .jne _ => 0x56#8

/-- The "sets PC directly" column of the opcode map (R76). -/
def Instr.setsPcDirectly : Instr → Bool
  | .hlt => false
  | .ldi _ _ => false
  | .prn _ => false
  | .add _ _ => false
  | .mul _ _ => false
  | .push _ => false
  | .pop _ => false
  | .call _ => true
  | .ret => true
  | .cmp _ _ => false
  | .jmp _ => true
  | .jeq _ => true
  | .jne _ => true

/-- The thirteen opcode values, in the order of the opcode map (R76). -/
def opcodeValues : List Byte :=
  [0x01#8, 0x82#8, 0x47#8, 0xA0#8, 0xA2#8, 0x45#8, 0x46#8, 0x50#8, 0x11#8, 0xA7#8, 0x54#8, 0x55#8, 0x56#8]

/-- Why three fetched bytes are no instruction: the first is none of the thirteen opcodes (R78). The refusal
carries the byte, as R78 asks. -/
inductive DecodeRefusal where
  | unsupportedOperation (opcode : Byte)
  deriving DecidableEq, Repr

/-- Decoding of the three bytes every step fetches (R93, R95). All eight bits of `ir` are compared with the
thirteen values of R76; the bytes beyond the width are not looked at (R73), and register-index bytes are passed
on whole (R74). -/
def decodeFetched (ir opa opb : Byte) : Except DecodeRefusal Instr :=
  if ir = 0x01#8 then .ok .hlt
  else if ir = 0x82#8 then .ok (.ldi opa opb)
  else if ir = 0x47#8 then .ok (.prn opa)
  else if ir = 0xA0#8 then .ok (.add opa opb)
  else if ir = 0xA2#8 then .ok (.mul opa opb)
  else if ir = 0x45#8 then .ok (.push opa)
  else if ir = 0x46#8 then .ok (.pop opa)
  else if ir = 0x50#8 then .ok (.call opa)
  else if ir = 0x11#8 then .ok .ret
  else if ir = 0xA7#8 then .ok (.cmp opa opb)
  else if ir = 0x54#8 then .ok (.jmp opa)
  else if ir = 0x55#8 then .ok (.jeq opa)
  else if ir = 0x56#8 then .ok (.jne opa)
  else .error (.unsupportedOperation ir)

/-- Why a list of bytes does not begin with an instruction. -/
inductive BytesRefusal where
  /-- The first byte is no opcode (R78). -/
  | unsupportedOperation (opcode : Byte)
  /-- The list ends before the instruction does. -/
  | truncated
  deriving DecidableEq, Repr

/-- Decoding from a list of bytes, lowest address first (R55): the instruction and the bytes that follow it. -/
def decode (bytes : List Byte) : Except BytesRefusal (Instr × List Byte) :=
  match bytes with
  | [] => .error .truncated
  | ir :: rest =>
    match decodeFetched ir (rest.getD 0 0x00#8) (rest.getD 1 0x00#8) with
    | .error (.unsupportedOperation op) => .error (.unsupportedOperation op)
    | .ok i => if bytes.length < i.width then .error .truncated else .ok (i, bytes.drop i.width)

/-- The operand bytes in the order of the instruction's bytes (R71, R81). -/
def Instr.operandBytes : Instr → List Byte
  | .hlt => []
  | .ldi a imm => [a, imm]
  | .prn a => [a]
  | .add a b => [a, b]
  | .mul a b => [a, b]
  | .push a => [a]
  | .pop a => [a]
  | .call a => [a]
  | .ret => []
  | .cmp a b => [a, b]
  | .jmp a => [a]
  | .jeq a => [a]
  | .jne a => [a]

/-- The bytes of an instruction, lowest address first: the opcode, then the operands (R55, R71). -/
def encode (i : Instr) : List Byte := i.opcode :: i.operandBytes

/-- Byte `k` of an instruction given as a number whose bit 0 is the least significant bit of the first byte, as
spec/opcode_table.json numbers bits; bits from `nbits` up are zero. -/
def wordByte (nbits w k : Nat) : Byte := BitVec.ofNat 8 (w % 2 ^ nbits / 2 ^ (8 * k))

/-- What the decoder reads from an instruction word numbered as spec/opcode_table.json numbers it: the three bytes
that a fetch would give, the first at the lowest address. -/
def decodeTableWord (nbits w : Nat) : Option Instr :=
  match decodeFetched (wordByte nbits w 0) (wordByte nbits w 1) (wordByte nbits w 2) with
  | .ok i => some i
  | .error _ => none

end Sys2Proof
end

