-- ==== Sys2Proof/Config.lean ====
section
/-! DEFINITION. The implementation parameters of the machine (00_scope.md R6). The spec leaves none of
them open (92_eei_decisions.md: "No point is left OPEN as a model parameter"; R91: "no
implementation-defined value anywhere in the machine"), so there is no free value here. -/

namespace Sys2Proof.Config

/-- `MEM_SIZE`: 256 cells; the last address is `memSize - 1 = 255` (R6, R50). -/
abbrev memSize : Nat := 256

/-- `SP_INDEX`: the register used as stack pointer is R7 (R6, R21). -/
abbrev spIndex : RegIndex := 7

/-- `SP_RESET` (R6, R40). -/
abbrev spReset : Byte := 0xF4#8

/-- `GPR_RESET`, the reset value of R0 to R6: the spec's own decision D1 (R40, R41).
DESIGN CHOICE, log entry 2; unsafe. -/
abbrev gprReset : Byte := 0x00#8

/-- `PC_RESET` (R6, R40). -/
abbrev pcReset : Byte := 0x00#8

/-- `FL_RESET` (R6, R40). -/
abbrev flReset : FlagBits := 0b000#3

/-- `MEM_RESET`: what a cell holds that neither the loader nor an instruction has written (R6, R40,
R51). It is what an address that the memory list does not name reads as. -/
abbrev memReset : Byte := 0x00#8

end Sys2Proof.Config
end

