-- ==== Sys2Proof/Machine/State.lean ====
section
/-! DEFINITION. The whole state of the machine as one record of plain data (10_state.md R20), the fault record it can
hold (60_exceptions.md R151, R152), the reasons a step can stop, and the state after reset (R40). -/

namespace Sys2Proof.Machine

/-- The memory: cells as (address, byte) pairs. The canonical form is `Memory.wf` (Machine/Ops.lean); an address
that is not listed reads as `Config.memReset` (R40, R51; log entry 19). -/
abbrev Memory := List Host.Cell

/-- The four kinds of AddressOutOfRange (R152, R154). -/
inductive AddressKind where
  /-- A lookahead read would be at address 256 (R94). -/
  | fetch
  /-- The sequential advance of the pc would pass 255 (R99). -/
  | pcAdvance
  /-- A stack-pointer decrement at 0 (R120). -/
  | spUnderflow
  /-- A stack-pointer increment at 255 (R120). -/
  | spOverflow
  deriving DecidableEq, Repr

/-- The cause of a fault (R151). -/
inductive FaultCause where
  | unsupportedOperation
  | addressOutOfRange
  | registerIndexOutOfRange
  deriving DecidableEq, Repr

/-- The detail a fault record carries, one alternative for each cause (R152). -/
inductive FaultDetail where
  | unsupportedOperation (opcode : Byte)
  | addressOutOfRange (kind : AddressKind)
  | registerIndexOutOfRange (operand : OperandNo) (value : Byte)
  deriving DecidableEq, Repr

/-- The fault record (R152): the address of the faulting instruction and the detail. The spec's third component, the
cause, is a function of the detail (`FaultRecord.cause` in Machine/Ops.lean) and is not stored twice (log entry 8). -/
structure FaultRecord where
  pc : Byte
  detail : FaultDetail
  deriving DecidableEq, Repr

/-- The state of the machine: exactly the record of R20. -/
structure State where
  /-- The general registers R0 to R7; `x[7]` is the stack pointer (R21 to R25). -/
  x : Vector Byte 8
  /-- The program counter (R26 to R28). -/
  pc : Byte
  /-- The flags FL: bit 0 E, bit 1 G, bit 2 L (R29 to R32). -/
  fl : FlagBits
  /-- The Running flag (R33). -/
  running : Bool
  /-- The fault latch (R34). -/
  fault : Option FaultRecord
  /-- The output stream, oldest element first (R36). -/
  out : List Byte
  /-- The 256 memory cells (R50). -/
  mem : Memory
  deriving DecidableEq, Repr

/-- Why `step` answers no next state. A fault of the core is NOT one of these: raising one is a step that sets the
latch (R14, R158). These two say that no step is enabled (R35, R91, R104). -/
inductive Fault where
  /-- Raised by `step` alone: the machine is Halted, and no step is enabled. Safe: the model stops where the machine
  has stopped (log entry 1). -/
  | halted
  /-- Raised by `step` alone: the machine is Faulted with this record, and no step is enabled. Safe: the model stops
  where the machine has stopped (log entry 1). -/
  | faulted (record : FaultRecord)
  deriving DecidableEq, Repr

/-- Why the model gives no meaning to an instruction. -/
inductive Refusal where
  /-- Answered by an arm of `exec` whose instruction has no meaning yet; no arm does so. Safe. -/
  | notModelled (mnemonic : String)
  deriving DecidableEq, Repr

/-- The state after reset, before the loader has run: the table of R40. The value of R0 to R6 is the spec's decision
D1 (DESIGN CHOICE, log entry 2; unsafe). -/
def State.reset : State where
  x := (Vector.replicate 8 Config.gprReset).set 7 Config.spReset
  pc := Config.pcReset
  fl := Config.flReset
  running := true
  fault := none
  out := []
  mem := []

end Sys2Proof.Machine
end

