-- ==== Sys2Proof/Machine/Ops.lean ====
section
/-! DEFINITION. The named operations the instruction rules are written with (00_scope.md R13): reading and writing
memory, registers, the pc, the flags and the output, raising a fault (R14, R158), the status (R35), the sequential
advance (R99) and the two stack-pointer steps (R120). There is no return from a fault (R159), so no operation clears
the latch. -/

namespace Sys2Proof.Machine

/-! ### Memory -/

/-- The byte in cell `a` (R51): the listed byte, or the reset value. -/
def Memory.read (m : Memory) (a : Nat) : Byte :=
  match m with
  | [] => Config.memReset
  | c :: rest => if c.1 = a then c.2 else Memory.read rest a

/-- The memory with no entry for `a`. -/
def Memory.erase (m : Memory) (a : Nat) : Memory :=
  match m with
  | [] => []
  | c :: rest => if c.1 = a then Memory.erase rest a else c :: Memory.erase rest a

/-- The memory with an entry for `a` put before the first higher address. -/
def Memory.insert (m : Memory) (a : Nat) (v : Byte) : Memory :=
  match m with
  | [] => [(a, v)]
  | c :: rest => if a < c.1 then (a, v) :: c :: rest else c :: Memory.insert rest a v

/-- Store `v` in cell `a` (R51). Storing the reset value removes the entry, so that equal memories are equal
lists. -/
def Memory.write (m : Memory) (a : Nat) (v : Byte) : Memory :=
  if v = Config.memReset then Memory.erase m a else Memory.insert (Memory.erase m a) a v

/-- Canonical from address `lo` on: addresses strictly rising, at least `lo`, within the address space, and no entry
equal to what an unlisted address reads as. -/
def Memory.wfFrom (lo : Nat) (m : Memory) : Bool :=
  match m with
  | [] => true
  | c :: rest =>
    decide (lo ≤ c.1) && decide (c.1 < Config.memSize) && decide (c.2 ≠ Config.memReset) && Memory.wfFrom (c.1 + 1) rest

/-- The canonical form of a memory. -/
def Memory.wf (m : Memory) : Bool := Memory.wfFrom 0 m

/-! ### Reading the state -/

/-- `x[i]` (R13). -/
def State.readReg (s : State) (i : RegIndex) : Byte := s.x[i.val]

/-- SP, the alias of `x[7]` (R21). -/
def State.sp (s : State) : Byte := s.readReg Config.spIndex

/-- `MemRead(a, 1)` (R13): every byte value is an address (R50). -/
def State.memRead (s : State) (a : Byte) : Byte := s.mem.read a.toNat

/-- The cause of a fault, from its detail (R151, R152). -/
def FaultDetail.cause : FaultDetail → FaultCause
  | .unsupportedOperation _ => .unsupportedOperation
  | .addressOutOfRange _ => .addressOutOfRange
  | .registerIndexOutOfRange _ _ => .registerIndexOutOfRange

/-- The `cause` component of the spec's fault record (R152). -/
def FaultRecord.cause (r : FaultRecord) : FaultCause := r.detail.cause

/-- The cause codes of R151. -/
def FaultCause.code : FaultCause → Nat
  | .unsupportedOperation => 1
  | .addressOutOfRange => 2
  | .registerIndexOutOfRange => 3

/-- The three conditions a machine can be in (R35); Faulted shows its record (R10). -/
inductive Status where
  | running
  | halted
  | faulted (record : FaultRecord)
  deriving DecidableEq, Repr

/-- The status, computed from `running` and `fault` by the table of R35. -/
def State.status (s : State) : Status :=
  match s.fault with
  | some r => .faulted r
  | none => if s.running then .running else .halted

/-! ### Writing the state -/

/-- `x[i] <- v` (R13). -/
def State.writeReg (s : State) (i : RegIndex) (v : Byte) : State := { s with x := s.x.set i.val v }

/-- `x[7] <- v`. -/
def State.setSp (s : State) (v : Byte) : State := s.writeReg Config.spIndex v

/-- `pc <- v` (R13). -/
def State.setPc (s : State) (v : Byte) : State := { s with pc := v }

/-- `fl <- f` (R13). -/
def State.setFl (s : State) (f : FlagBits) : State := { s with fl := f }

/-- `running <- false` (R13, R33). -/
def State.stop (s : State) : State := { s with running := false }

/-- `Emit(v)` (R142): one element appended to the output stream. -/
def State.emit (s : State) (v : Byte) : State := { s with out := s.out ++ [v] }

/-- `MemWrite(a, 1, v)` (R13). -/
def State.memWrite (s : State) (a v : Byte) : State := { s with mem := s.mem.write a.toNat v }

/-- Taking a fault, the one shared operation of R14 and R158: the latch gets the record, whose `pc` is the address of
the faulting instruction, and nothing else changes. It is applied to the state the step BEGAN in, so a raise discards
every write of its step (log entry 3). -/
def State.raise (s : State) (d : FaultDetail) : State := { s with fault := some { pc := s.pc, detail := d } }

/-! ### Operations that may raise

Each takes the state `s` the step began in, so that raising commits nothing, and what to do otherwise. -/

/-- What a meaning answers. -/
abbrev Result := Host.Outcome State Fault Refusal

/-- The sequential advance (R98, R99): the address `A + width` if it is at most 255, else
AddressOutOfRange(pc_advance). -/
def seqNext (width : Nat) (s : State) (k : Byte → Result) : Result :=
  if s.pc.toNat + width ≤ 255 then k (BitVec.ofNat 8 (s.pc.toNat + width))
  else .next (s.raise (.addressOutOfRange .pcAdvance))

/-- The stack-pointer decrement of PUSH and CALL (R120), on the state `t` of the step in hand. -/
def spDecrement (s t : State) (k : State → Result) : Result :=
  if t.sp = 0x00#8 then .next (s.raise (.addressOutOfRange .spUnderflow))
  else k (t.setSp (t.sp - 1#8))

/-- The stack-pointer increment of POP and RET (R120), on the state `t` of the step in hand. -/
def spIncrement (s t : State) (k : State → Result) : Result :=
  if t.sp = 0xFF#8 then .next (s.raise (.addressOutOfRange .spOverflow))
  else k (t.setSp (t.sp + 1#8))

end Sys2Proof.Machine
end

