-- ==== Sys2Proof/Machine/Flags.lean ====
section
/-! DEFINITION. The flags FL (10_state.md R29 to R32): the bits by name, and the one computation that sets them, the
comparison of CMP (41_data_alu.md R114). No other instruction computes a flag (R30, R115). -/

namespace Sys2Proof.Machine

/-- `fl.E`, bit 0 (R29). -/
def State.flagE (s : State) : Bool := s.fl.getLsbD 0

/-- `fl.G`, bit 1 (R29). -/
def State.flagG (s : State) : Bool := s.fl.getLsbD 1

/-- `fl.L`, bit 2 (R29). -/
def State.flagL (s : State) : Bool := s.fl.getLsbD 2

/-- The flags CMP sets from its left and right value, compared as unsigned numbers (R114; the unsigned reading is the
spec's decision D12, log entry 12). -/
def compareFlags (p q : Byte) : FlagBits :=
  if p.toNat < q.toNat then 0b100#3
  else if q.toNat < p.toNat then 0b010#3
  else 0b001#3

end Sys2Proof.Machine
end

