-- ==== Sys2Proof/Machine/Operands.lean ====
section
/-! DEFINITION. The operand forms (30_encoding.md R74, R75). There are two: a register index, which is a whole byte
that must be 0 to 7, and the immediate of LDI, which is used as it stands and needs no operation. -/

namespace Sys2Proof.Machine

/-- A register-index operand (R74, R96): a byte 0 to 7 selects its register; any other byte raises
RegisterIndexOutOfRange with the operand's number and the byte, and commits nothing. -/
def withReg (n : OperandNo) (v : Byte) (s : State) (k : RegIndex → Result) : Result :=
  if h : v.toNat < 8 then k ⟨v.toNat, h⟩ else .next (s.raise (.registerIndexOutOfRange n v))

/-- The two register-index operands of format F2RR, operand 1 checked first (R96). -/
def withRegs (a b : Byte) (s : State) (k : RegIndex → RegIndex → Result) : Result :=
  withReg .op1 a s fun ra => withReg .op2 b s fun rb => k ra rb

end Sys2Proof.Machine
end

