-- ==== Sys2Proof/Machine/ControlTransfer.lean ====
section
/-! DEFINITION. CALL, RET, JMP, JEQ and JNE (43_control_transfer.md R130 to R139): they set the pc themselves, and no
increment is added. -/

namespace Sys2Proof.Machine

/-- CALL a (R131): decrement, store the return address `A + 2`, then jump to `x[a]`, read after the decrement
(decision D10, log entry 10). `A + 2` is a byte at every address CALL can be fetched from (R65; log entry 18 for the
others). -/
def execCall (a : Byte) (s : State) : Result :=
  withReg .op1 a s fun ra =>
    spDecrement s s fun t =>
      seqNext 2 s fun ret => .next ((t.memWrite t.sp ret).setPc (t.readReg ra))

/-- RET (R132): jump to the byte at the stack pointer, and increment the stack pointer. -/
def execRet (s : State) : Result :=
  spIncrement s s fun t => .next (t.setPc (s.memRead s.sp))

/-- JMP a (R133). -/
def execJmp (a : Byte) (s : State) : Result :=
  withReg .op1 a s fun ra => .next (s.setPc (s.readReg ra))

/-- JEQ a (R134): taken exactly when E is set; the register index is checked either way (R74). -/
def execJeq (a : Byte) (s : State) : Result :=
  withReg .op1 a s fun ra =>
    if s.flagE then .next (s.setPc (s.readReg ra)) else seqNext 2 s fun pc' => .next (s.setPc pc')

/-- JNE a (R135): taken exactly when E is clear, so also before any CMP (90_conflicts.md C1, log entry 20). -/
def execJne (a : Byte) (s : State) : Result :=
  withReg .op1 a s fun ra =>
    if s.flagE then seqNext 2 s fun pc' => .next (s.setPc pc') else .next (s.setPc (s.readReg ra))

end Sys2Proof.Machine
end

