-- ==== Sys2Proof/Machine/DataAlu.lean ====
section
/-! DEFINITION. LDI, ADD, MUL and CMP (41_data_alu.md R110 to R118). Each is three bytes wide, and its register-index
checks come before its pc check (R110, R156). -/

namespace Sys2Proof.Machine

/-- LDI a,imm (R111): the immediate is stored unchanged. -/
def execLdi (a imm : Byte) (s : State) : Result :=
  withReg .op1 a s fun ra =>
    seqNext 3 s fun pc' => .next ((s.writeReg ra imm).setPc pc')

/-- ADD a,b (R112): both sources are read before the destination is written; the sum is modulo 256. -/
def execAdd (a b : Byte) (s : State) : Result :=
  withRegs a b s fun ra rb =>
    seqNext 3 s fun pc' => .next ((s.writeReg ra (s.readReg ra + s.readReg rb)).setPc pc')

/-- MUL a,b (R113): the low eight bits of the product. -/
def execMul (a b : Byte) (s : State) : Result :=
  withRegs a b s fun ra rb =>
    seqNext 3 s fun pc' => .next ((s.writeReg ra (s.readReg ra * s.readReg rb)).setPc pc')

/-- CMP a,b (R114): all three flags are overwritten; no register is written. -/
def execCmp (a b : Byte) (s : State) : Result :=
  withRegs a b s fun ra rb =>
    seqNext 3 s fun pc' => .next ((s.setFl (compareFlags (s.readReg ra) (s.readReg rb))).setPc pc')

end Sys2Proof.Machine
end

