-- ==== Sys2Proof/Machine/Stack.lean ====
section
/-! DEFINITION. PUSH and POP (42_stack.md R120 to R127). The statements run in the source's order, each seeing the
writes before it, which matters when the operand is R7 (decision D10, log entry 10). -/

namespace Sys2Proof.Machine

/-- PUSH a (R122): decrement, then store `x[a]` as it stands after the decrement at the new stack pointer. -/
def execPush (a : Byte) (s : State) : Result :=
  withReg .op1 a s fun ra =>
    spDecrement s s fun t =>
      seqNext 2 s fun pc' => .next ((t.memWrite t.sp (t.readReg ra)).setPc pc')

/-- POP a (R123): load `x[a]` from the stack pointer, then increment the stack pointer as it stands after the
load. -/
def execPop (a : Byte) (s : State) : Result :=
  withReg .op1 a s fun ra =>
    spIncrement s (s.writeReg ra (s.memRead s.sp)) fun t =>
      seqNext 2 s fun pc' => .next (t.setPc pc')

end Sys2Proof.Machine
end

