-- ==== Sys2Proof/Machine/SystemIo.lean ====
section
/-! DEFINITION. HLT and PRN, and the rendering of the output stream as text (44_system_io.md R140 to R146). -/

namespace Sys2Proof.Machine

/-- HLT (R140): the Running flag is cleared, and the pc advances by HLT's width (decision D16, log entry 16). -/
def execHlt (s : State) : Result :=
  seqNext 1 s fun pc' => .next (s.stop.setPc pc')

/-- PRN a (R141): the byte `x[a]` is appended to the output stream. -/
def execPrn (a : Byte) (s : State) : Result :=
  withReg .op1 a s fun ra =>
    seqNext 2 s fun pc' => .next ((s.emit (s.readReg ra)).setPc pc')

/-- The character code of a decimal digit: 0x30 for `0` to 0x39 for `9`. R143 gives a byte code for the line feed alone
and none for the digits; that they have their ASCII codes is the model's own. DESIGN CHOICE, log entry 22; unsafe for
claims about the text's bytes. -/
def digitChar (d : Nat) : Byte := BitVec.ofNat 8 (0x30 + d)

/-- One element of the output stream as text (R143): the shortest decimal numeral, then a line feed
(decision D11, log entry 11; for the digits' codes log entry 22). -/
def renderByte (v : Byte) : List Byte :=
  (if v.toNat < 10 then [digitChar v.toNat]
   else if v.toNat < 100 then [digitChar (v.toNat / 10), digitChar (v.toNat % 10)]
   else [digitChar (v.toNat / 100), digitChar (v.toNat / 10 % 10), digitChar (v.toNat % 10)]) ++ [0x0A#8]

/-- The output stream as text, one line for each element (R143). -/
def State.outText (s : State) : List Byte := s.out.flatMap renderByte

end Sys2Proof.Machine
end

