-- ==== Sys2Proof/Machine/Fetch.lean ====
section
/-! DEFINITION. Fetching the opcode byte and the two lookahead bytes (40_execution_loop.md R93, R94). -/

namespace Sys2Proof.Machine

/-- The three bytes a step fetches: the latches `ir`, `opa`, `opb` (R13, R39). They are refetched at every step and
are no part of the state. -/
structure Fetched where
  ir : Byte
  opa : Byte
  opb : Byte
  deriving DecidableEq, Repr

/-- One read of the fetch, at an address computed without wrapping: there is no cell 256 (R53, R94). -/
def fetchByte (s : State) (a : Nat) : Except FaultDetail Byte :=
  if a ≤ 255 then .ok (s.mem.read a) else .error (.addressOutOfRange .fetch)

/-- Fetch with the unconditional lookahead: the bytes at `A`, `A + 1` and `A + 2`, in that order, the first read out of
range deciding (R93, R94; decision D3, log entry 4). -/
def fetch (s : State) : Except FaultDetail Fetched :=
  match fetchByte s s.pc.toNat with
  | .error d => .error d
  | .ok ir =>
    match fetchByte s (s.pc.toNat + 1) with
    | .error d => .error d
    | .ok opa =>
      match fetchByte s (s.pc.toNat + 2) with
      | .error d => .error d
      | .ok opb => .ok { ir := ir, opa := opa, opb := opb }

end Sys2Proof.Machine
end

