-- ==== Sys2Proof/Machine/Cycle.lean ====
section
/-! DEFINITION. One iteration of the fetch-decode-execute loop (40_execution_loop.md R90 to R100). -/

namespace Sys2Proof.Machine

/-- Dispatch and execution of the fetched bytes (R95, R97): a byte that is no opcode raises UnsupportedOperation; an
opcode runs its instruction, whose meaning makes the register-index checks of R96 first. -/
def runFetched (f : Fetched) (s : State) : Result :=
  match decodeFetched f.ir f.opa f.opb with
  | .ok i => exec i s
  | .error (.unsupportedOperation op) => .next (s.raise (.unsupportedOperation op))

/-- The step of R100. It is enabled exactly in status Running (R91); on a Halted or Faulted machine no step is enabled,
and the answer names which (log entry 1). -/
def cycle (s : State) : Result :=
  match s.status with
  | .halted => .fault .halted
  | .faulted r => .fault (.faulted r)
  | .running =>
    match fetch s with
    | .error d => .next (s.raise d)
    | .ok f => runFetched f s

end Sys2Proof.Machine
end

