-- ==== Sys2Proof/Machine/Load.lean ====
section
/-! DEFINITION. Program load as the core sees it (70_reset_and_hazards.md R184 to R187): the loader writes the image
from address 0 before the first step, and changes nothing else. Reading the program file is outside the core (R5). -/

namespace Sys2Proof.Machine

/-- Write bytes at rising addresses from `a` on, in that order (R185). -/
def Memory.place (m : Memory) (a : Nat) (bytes : List Byte) : Memory :=
  match bytes with
  | [] => m
  | b :: rest => Memory.place (m.write a b) (a + 1) rest

/-- Why an image is not loaded. -/
inductive LoadRefusal where
  /-- The host-side error AddressOutOfRange for an image of more than 256 bytes (R186; decision D13, log entry 13). -/
  | addressOutOfRange
  deriving DecidableEq, Repr

/-- The launch state of an image (R42, R185): the state after reset with the image placed from address 0. -/
def load (image : List Byte) : Except LoadRefusal State :=
  if image.length ≤ Config.memSize then .ok { State.reset with mem := State.reset.mem.place 0 image }
  else .error .addressOutOfRange

/-- The state with an instruction's bytes stored at the pc; of bytes that would lie beyond address 255, which do not
exist, none is stored (log entry 21). -/
def State.placeAtPc (s : State) (bytes : List Byte) : State :=
  { s with mem := s.mem.place s.pc.toNat (bytes.take (Config.memSize - s.pc.toNat)) }

end Sys2Proof.Machine
end

