-- ==== Sys2Proof/Machine/Step.lean ====
section
/-! DEFINITION. The step of the machine, and the placing of one instruction where the next step fetches it. -/

namespace Sys2Proof.Machine

/-- One step: one whole instruction, or the raising of one fault (R90; decision D15, log entry 15). Its only input is the
state (decision D14, log entry 14). -/
def step (s : State) : Host.Outcome State Fault Refusal := cycle s

/-- The state with an instruction, given as spec/opcode_table.json numbers its bits, stored at the pc: three bytes, the
longest instruction, the bits from `nbits` up being zero. It stands for the external load (log entry 13). -/
def State.withFetchWord (s : State) (nbits w : Nat) : State :=
  s.placeAtPc [wordByte nbits w 0, wordByte nbits w 1, wordByte nbits w 2]

end Sys2Proof.Machine
end

