-- ==== Sys2Proof/Safety.lean ====
section
/-! DEFINITION. The words claims are stated in: what a step that raises a fault leaves, what a run is and how it ends
(40_execution_loop.md R101, R102), and which states are legal. -/

namespace Sys2Proof.Machine

/-- Every register holds in `t` what it holds in `s`, but for those listed. -/
def KeepsRegsExcept (written : List RegIndex) (s t : State) : Prop :=
  ∀ i, i ∉ written → t.readReg i = s.readReg i

/-- Every cell of memory reads in `t` as it does in `s`. -/
def KeepsMem (s t : State) : Prop := ∀ a, t.memRead a = s.memRead a

/-- Every cell but `stored` reads in `t` as it does in `s`: a store moves exactly one byte (R54). -/
def KeepsMemExcept (stored : Byte) (s t : State) : Prop := ∀ a, a ≠ stored → t.memRead a = s.memRead a

/-- What a faulting step leaves (R14, R158): the latch holds the record, whose `pc` is the address of the faulting
instruction, and every other piece of state is as before the step. -/
def OnlyLatches (d : FaultDetail) (s t : State) : Prop :=
  t.fault = some { pc := s.pc, detail := d } ∧ KeepsRegsExcept [] s t ∧ t.pc = s.pc ∧ t.fl = s.fl ∧
    t.running = s.running ∧ t.out = s.out ∧ KeepsMem s t

/-- The instruction at the pc is `i`: the three bytes a fetch at the pc reads decode to it (R93, R95). -/
def DecodesAt (s : State) (i : Instr) : Prop :=
  decodeFetched (s.memRead s.pc) (s.memRead (s.pc + 1#8)) (s.memRead (s.pc + 2#8)) = .ok i

/-- `n` steps, each of which answers a next state. -/
def runSteps : Nat → State → Option State
  | 0, s => some s
  | n + 1, s =>
    match step s with
    | .next t => runSteps n t
    | .fault _ => none
    | .refused _ => none

/-- The state a run of an image is in after `n` steps (R42, R101). -/
def RunOf (image : List Byte) (n : Nat) (t : State) : Prop :=
  ∃ s, load image = .ok s ∧ runSteps n s = some t

/-- A run that ended by HLT, without a fault: the only kind of end a claim about a program's result may rest on
(R102, R171). -/
def EndedNormally (t : State) : Prop := t.status = .halted

/-- The four values FL ever takes (R31): none set, E, G, L. -/
def FlagsLegal (f : FlagBits) : Prop := f = 0b000#3 ∨ f = 0b001#3 ∨ f = 0b010#3 ∨ f = 0b100#3

/-- What must hold of a state for a fault of this detail to have been raised in it (R154 to R157). Nothing has changed
since but the latch, so the state still shows why. -/
def FaultExplained (s : State) : FaultDetail → Prop
  | .unsupportedOperation op => s.pc.toNat ≤ 253 ∧ s.memRead s.pc = op ∧ op ∉ opcodeValues
  | .addressOutOfRange .fetch => 254 ≤ s.pc.toNat
  | .addressOutOfRange .pcAdvance => s.pc.toNat = 253 ∧ s.memRead s.pc ∈ [0x82#8, 0xA0#8, 0xA2#8, 0xA7#8]
  | .addressOutOfRange .spUnderflow => s.pc.toNat ≤ 253 ∧ s.memRead s.pc ∈ [0x45#8, 0x50#8] ∧ s.readReg 7 = 0x00#8
  | .addressOutOfRange .spOverflow =>
      s.pc.toNat ≤ 253 ∧
        ((s.memRead s.pc = 0x46#8 ∧ s.memRead (s.pc + 1#8) = 0x07#8 ∧ s.memRead (s.readReg 7) = 0xFF#8) ∨
          (s.memRead s.pc = 0x46#8 ∧ s.memRead (s.pc + 1#8) ≠ 0x07#8 ∧ s.readReg 7 = 0xFF#8) ∨
          (s.memRead s.pc = 0x11#8 ∧ s.readReg 7 = 0xFF#8))
  | .registerIndexOutOfRange .op1 v =>
      s.pc.toNat ≤ 253 ∧ 8 ≤ v.toNat ∧ s.memRead (s.pc + 1#8) = v ∧ s.memRead s.pc ∈ opcodeValues ∧
        s.memRead s.pc ≠ 0x01#8 ∧ s.memRead s.pc ≠ 0x11#8
  | .registerIndexOutOfRange .op2 v =>
      s.pc.toNat ≤ 253 ∧ 8 ≤ v.toNat ∧ s.memRead (s.pc + 2#8) = v ∧ s.memRead s.pc ∈ [0xA0#8, 0xA2#8, 0xA7#8]

/-- The legal states: memory is canonical (log entry 19), FL has one of its four values (R31), a Faulted machine still
has `running` set (R34, R35) and its record names the instruction the pc is at and is explained by the state, and a
machine whose `running` is clear stands just after a HLT (R140). -/
structure Inv (s : State) : Prop where
  memory : s.mem.wf = true
  flags : FlagsLegal s.fl
  latch : ∀ r, s.fault = some r → s.running = true ∧ r.pc = s.pc ∧ FaultExplained s r.detail
  halt : s.running = false → 1 ≤ s.pc.toNat ∧ s.pc.toNat ≤ 254 ∧ s.memRead (s.pc - 1#8) = 0x01#8

/-! ### The spec's tables about all instructions -/

/-- The registers an instruction writes: the columns "writes named" and "implicit" of the table in R23. -/
def WritesReg : Instr → RegIndex → Prop
  | .hlt, _ => False
  | .ldi a _, i => a = regByte i
  | .prn _, _ => False
  | .add a _, i => a = regByte i
  | .mul a _, i => a = regByte i
  | .push _, i => i = 7
  | .pop a, i => a = regByte i ∨ i = 7
  | .call _, i => i = 7
  | .ret, i => i = 7
  | .cmp _ _, _ => False
  | .jmp _, _ => False
  | .jeq _, _ => False
  | .jne _, _ => False

/-- The registers an instruction reads in a state: the columns "reads named" and "implicit" of the table in R23. JEQ and
JNE read their register only when taken. -/
def ReadsReg (s : State) : Instr → RegIndex → Prop
  | .hlt, _ => False
  | .ldi _ _, _ => False
  | .prn a, i => a = regByte i
  | .add a b, i => a = regByte i ∨ b = regByte i
  | .mul a b, i => a = regByte i ∨ b = regByte i
  | .push a, i => a = regByte i ∨ i = 7
  | .pop _, i => i = 7
  | .call a, i => a = regByte i ∨ i = 7
  | .ret, i => i = 7
  | .cmp a b, i => a = regByte i ∨ b = regByte i
  | .jmp a, i => a = regByte i
  | .jeq a, i => a = regByte i ∧ s.fl.getLsbD 0 = true
  | .jne a, i => a = regByte i ∧ s.fl.getLsbD 0 = false

/-- The faults an instruction can raise, besides the two that come before any instruction: the table of R157. -/
def MayRaise : Instr → FaultDetail → Prop
  | .hlt, _ => False
  | .ret, d => d = .addressOutOfRange .spOverflow
  | .prn a, d => d = .registerIndexOutOfRange .op1 a
  | .jmp a, d => d = .registerIndexOutOfRange .op1 a
  | .jeq a, d => d = .registerIndexOutOfRange .op1 a
  | .jne a, d => d = .registerIndexOutOfRange .op1 a
  | .push a, d => d = .registerIndexOutOfRange .op1 a ∨ d = .addressOutOfRange .spUnderflow
  | .call a, d => d = .registerIndexOutOfRange .op1 a ∨ d = .addressOutOfRange .spUnderflow
  | .pop a, d => d = .registerIndexOutOfRange .op1 a ∨ d = .addressOutOfRange .spOverflow
  | .ldi a _, d => d = .registerIndexOutOfRange .op1 a ∨ d = .addressOutOfRange .pcAdvance
  | .add a b, d =>
      d = .registerIndexOutOfRange .op1 a ∨ d = .registerIndexOutOfRange .op2 b ∨ d = .addressOutOfRange .pcAdvance
  | .mul a b, d =>
      d = .registerIndexOutOfRange .op1 a ∨ d = .registerIndexOutOfRange .op2 b ∨ d = .addressOutOfRange .pcAdvance
  | .cmp a b, d =>
      d = .registerIndexOutOfRange .op1 a ∨ d = .registerIndexOutOfRange .op2 b ∨ d = .addressOutOfRange .pcAdvance

end Sys2Proof.Machine
end

