-- ==== Sys2Proof/Certificates/Slice0/Obligations.lean ====
section
/-! DEFINITION. The statements for the provers. Each docstring names the rule of the spec it formalises, and, where a
clause rests on a choice the spec marks as its own, the decision D<n> of spec/92_eei_decisions.md and the log entry. A
register operand is quantified as a register `a : RegIndex`, whose operand byte is `regByte a`; the bytes that name no
register have statements of their own. -/

open Sys2Proof Sys2Proof.Machine

/-! ### Reset and load -/

/-- The table of R40. The values of R0 to R6 are the spec's decision D1 (log entry 2), the latch is D7 (log entry 3), the
empty output stream is D11 (log entry 11). -/
def Obligations.ResetGivesTheTableValues : Prop :=
  State.reset.readReg 7 = 0xF4#8 ∧ (∀ i, i ≠ 7 → State.reset.readReg i = 0x00#8) ∧ State.reset.pc = 0x00#8 ∧
    State.reset.fl = 0b000#3 ∧ State.reset.running = true ∧ State.reset.fault = none ∧ State.reset.out = [] ∧
    (∀ a, State.reset.memRead a = 0x00#8) ∧ State.reset.status = .running

/-- R185: load writes image byte `k` to cell `k`, leaves the other cells 0x00, and changes nothing else. -/
def Obligations.LoadPlacesTheImage : Prop :=
  ∀ image : List Byte, image.length ≤ 256 →
    ∃ s, load image = .ok s ∧
      (∀ a : Byte, ∀ h : a.toNat < image.length, s.memRead a = image[a.toNat]) ∧
      (∀ a : Byte, image.length ≤ a.toNat → s.memRead a = 0x00#8) ∧
      (∀ i, s.readReg i = State.reset.readReg i) ∧ s.pc = State.reset.pc ∧ s.fl = State.reset.fl ∧
      s.running = State.reset.running ∧ s.fault = State.reset.fault ∧ s.out = State.reset.out

/-- R186: an image longer than 256 bytes gives no launch state. This is the spec's decision D13 (log entry 13). -/
def Obligations.LoadRefusesLongImages : Prop :=
  ∀ image : List Byte, 256 < image.length → load image = .error .addressOutOfRange ∧ ∀ n t, ¬ RunOf image n t

/-! ### Memory -/

/-- R51: a read returns the byte last written, or the image byte, or 0x00; a write changes that one cell and nothing
else. -/
def Obligations.ReadReturnsTheByteLastWritten : Prop :=
  (∀ (s : State) (a v b : Byte), (s.memWrite a v).memRead b = if b = a then v else s.memRead b) ∧
  (∀ (s : State) (a v : Byte), KeepsRegsExcept [] s (s.memWrite a v) ∧ (s.memWrite a v).pc = s.pc ∧
    (s.memWrite a v).fl = s.fl ∧ (s.memWrite a v).running = s.running ∧ (s.memWrite a v).fault = s.fault ∧
    (s.memWrite a v).out = s.out) ∧
  (∀ (image : List Byte) (s : State) (a : Byte), load image = .ok s → s.memRead a = image.getD a.toNat 0x00#8) ∧
  (∀ a : Byte, State.reset.memRead a = 0x00#8)

/-- Two canonical memories that read alike at every address are the same data: the model's representation of the 256
cells (log entry 19). -/
def Obligations.MemoriesThatReadAlikeAreEqual : Prop :=
  ∀ m m' : Memory, m.wf = true → m'.wf = true → (∀ a : Byte, m.read a.toNat = m'.read a.toNat) → m = m'

/-- The access table of R52, but for the loader and the fetch. Only PUSH and CALL write memory, and they write the one
cell at the decremented stack pointer; only POP and RET read memory, and they read the one cell at the stack pointer:
with any other memory an instruction does the same to everything else. -/
def Obligations.OnlyStackInstructionsAccessMemory : Prop :=
  ∀ (i : Instr) (s t : State), exec i s = .next t →
    ((∀ a, i ≠ .push a) → (∀ a, i ≠ .call a) → KeepsMem s t) ∧
    KeepsMemExcept (s.readReg 7 - 1#8) s t ∧
    ((∀ a, i ≠ .pop a) → i ≠ .ret → ∀ m, ∃ m', exec i { s with mem := m } = .next { t with mem := m' }) ∧
    (∀ m, Memory.read m (s.readReg 7).toNat = s.memRead (s.readReg 7) →
      ∃ m', exec i { s with mem := m } = .next { t with mem := m' })

/-! ### Encoding -/

/-- Decoding an encoded instruction gives it back with every operand byte, and leaves the bytes after it (R71, R73). -/
def Obligations.DecodeInvertsEncode : Prop :=
  ∀ (i : Instr) (rest : List Byte), decode (encode i ++ rest) = .ok (i, rest)

/-- Bytes that decode are the encoding of what they decode to: no other bytes stand for an instruction (R71, R76). -/
def Obligations.EncodeInvertsDecode : Prop :=
  ∀ (bytes rest : List Byte) (i : Instr), decode bytes = .ok (i, rest) → bytes = encode i ++ rest

/-- The opcode map of R76, row by row: value, operands, format, width, and whether the instruction sets the pc
directly. -/
def Obligations.OpcodeMapRowByRow : Prop :=
  ∀ p q : Byte,
    (decodeFetched 0x01#8 p q = .ok .hlt ∧ Instr.hlt.format = .f0 ∧ Instr.hlt.width = 1 ∧
      Instr.hlt.setsPcDirectly = false) ∧
    (decodeFetched 0x82#8 p q = .ok (.ldi p q) ∧ (Instr.ldi p q).format = .f2ri ∧ (Instr.ldi p q).width = 3 ∧
      (Instr.ldi p q).setsPcDirectly = false) ∧
    (decodeFetched 0x47#8 p q = .ok (.prn p) ∧ (Instr.prn p).format = .f1 ∧ (Instr.prn p).width = 2 ∧
      (Instr.prn p).setsPcDirectly = false) ∧
    (decodeFetched 0xA0#8 p q = .ok (.add p q) ∧ (Instr.add p q).format = .f2rr ∧ (Instr.add p q).width = 3 ∧
      (Instr.add p q).setsPcDirectly = false) ∧
    (decodeFetched 0xA2#8 p q = .ok (.mul p q) ∧ (Instr.mul p q).format = .f2rr ∧ (Instr.mul p q).width = 3 ∧
      (Instr.mul p q).setsPcDirectly = false) ∧
    (decodeFetched 0x45#8 p q = .ok (.push p) ∧ (Instr.push p).format = .f1 ∧ (Instr.push p).width = 2 ∧
      (Instr.push p).setsPcDirectly = false) ∧
    (decodeFetched 0x46#8 p q = .ok (.pop p) ∧ (Instr.pop p).format = .f1 ∧ (Instr.pop p).width = 2 ∧
      (Instr.pop p).setsPcDirectly = false) ∧
    (decodeFetched 0x50#8 p q = .ok (.call p) ∧ (Instr.call p).format = .f1 ∧ (Instr.call p).width = 2 ∧
      (Instr.call p).setsPcDirectly = true) ∧
    (decodeFetched 0x11#8 p q = .ok .ret ∧ Instr.ret.format = .f0 ∧ Instr.ret.width = 1 ∧
      Instr.ret.setsPcDirectly = true) ∧
    (decodeFetched 0xA7#8 p q = .ok (.cmp p q) ∧ (Instr.cmp p q).format = .f2rr ∧ (Instr.cmp p q).width = 3 ∧
      (Instr.cmp p q).setsPcDirectly = false) ∧
    (decodeFetched 0x54#8 p q = .ok (.jmp p) ∧ (Instr.jmp p).format = .f1 ∧ (Instr.jmp p).width = 2 ∧
      (Instr.jmp p).setsPcDirectly = true) ∧
    (decodeFetched 0x55#8 p q = .ok (.jeq p) ∧ (Instr.jeq p).format = .f1 ∧ (Instr.jeq p).width = 2 ∧
      (Instr.jeq p).setsPcDirectly = true) ∧
    (decodeFetched 0x56#8 p q = .ok (.jne p) ∧ (Instr.jne p).format = .f1 ∧ (Instr.jne p).width = 2 ∧
      (Instr.jne p).setsPcDirectly = true)

/-- Words written out from the spec: those of the worked encoding in R83, and one of each other family. -/
def Obligations.WrittenOutWordsDecode : Prop :=
  decode [0x82#8, 0x00#8, 0x08#8] = .ok (.ldi 0x00#8 0x08#8, []) ∧
  decode [0xA2#8, 0x00#8, 0x01#8] = .ok (.mul 0x00#8 0x01#8, []) ∧
  decode [0x47#8, 0x00#8] = .ok (.prn 0x00#8, []) ∧ decode [0x01#8] = .ok (.hlt, []) ∧
  decode [0x46#8, 0x02#8, 0x47#8] = .ok (.pop 0x02#8, [0x47#8]) ∧
  decode [0x50#8, 0x01#8] = .ok (.call 0x01#8, []) ∧ decode [0x83#8, 0x00#8, 0x00#8] = .error (.unsupportedOperation 0x83#8)

/-- R95 and R78: all eight bits of the opcode byte are compared with the thirteen values; on a match the step is that
row's instruction; each of the 243 other values, 0x00 among them, raises UnsupportedOperation with the byte and the pc, and
commits nothing. A byte is fetched as an opcode at 0 to 253 only (decision D3, log entry 4). -/
def Obligations.DispatchComparesTheWholeOpcodeByte : Prop :=
  (∀ ir p q : Byte, (∃ i, decodeFetched ir p q = .ok i) ↔
    ir ∈ [0x01#8, 0x82#8, 0x47#8, 0xA0#8, 0xA2#8, 0x45#8, 0x46#8, 0x50#8, 0x11#8, 0xA7#8, 0x54#8, 0x55#8, 0x56#8]) ∧
  ((List.range 256).filter fun n => decide (BitVec.ofNat 8 n ∉ opcodeValues)).length = 243 ∧
  decodeFetched 0x00#8 0x00#8 0x00#8 = .error (.unsupportedOperation 0x00#8) ∧
  (∀ s i, s.status = .running → s.pc.toNat ≤ 253 → DecodesAt s i → step s = exec i s) ∧
  (∀ s, s.status = .running → s.pc.toNat ≤ 253 → (∀ i, ¬ DecodesAt s i) →
    ∃ t, step s = .next t ∧ OnlyLatches (.unsupportedOperation (s.memRead s.pc)) s t)

/-! ### The step -/

/-- A step runs the instruction that the bytes at the pc decode to, and adds nothing around it (R97, R100). -/
def Obligations.StepRunsTheDecodedInstruction : Prop :=
  ∀ (s : State) (i : Instr) (rest : List Byte), s.status = .running → s.pc.toNat ≤ 253 →
    decode [s.memRead s.pc, s.memRead (s.pc + 1#8), s.memRead (s.pc + 2#8)] = .ok (i, rest) → step s = exec i s

/-- R94: at 254 and 255 the lookahead faults before dispatch, whatever memory holds. This is the spec's decision D3
(log entry 4). -/
def Obligations.LookaheadFaultsAtTheTopOfMemory : Prop :=
  ∀ s : State, s.status = .running → 254 ≤ s.pc.toNat →
    ∃ t, step s = .next t ∧ OnlyLatches (.addressOutOfRange .fetch) s t

/-- R91, R104: a step is enabled exactly in status Running; a Halted or Faulted machine has none. The status of a faulted
machine is the spec's decision D7, and that it is never left is D14 (log entries 1, 3 and 14). -/
def Obligations.StepIsEnabledExactlyWhenRunning : Prop :=
  ∀ s : State, ((∃ t, step s = .next t) ↔ s.running = true ∧ s.fault = none) ∧
    (s.running = false → s.fault = none → step s = .fault .halted) ∧
    (∀ r, s.fault = some r → step s = .fault (.faulted r))

/-- The order of R156 with the conditions of R153 to R155: one step raises at most one fault, the first of the list, and
none when no condition holds. The order is the spec's decision D9 (log entry 9), the conditions are D2 to D6. -/
def Obligations.FaultsComeInTheOrderOfWork : Prop :=
  ∀ (s : State) (ir opa opb : Byte), s.status = .running →
    ir = s.memRead s.pc → opa = s.memRead (s.pc + 1#8) → opb = s.memRead (s.pc + 2#8) →
    (254 ≤ s.pc.toNat → ∃ t, step s = .next t ∧ OnlyLatches (.addressOutOfRange .fetch) s t) ∧
    (s.pc.toNat ≤ 253 → ir ∉ opcodeValues → ∃ t, step s = .next t ∧ OnlyLatches (.unsupportedOperation ir) s t) ∧
    (s.pc.toNat ≤ 253 → ir ∈ opcodeValues → ir ≠ 0x01#8 → ir ≠ 0x11#8 → 8 ≤ opa.toNat →
      ∃ t, step s = .next t ∧ OnlyLatches (.registerIndexOutOfRange .op1 opa) s t) ∧
    (s.pc.toNat ≤ 253 → ir ∈ [0xA0#8, 0xA2#8, 0xA7#8] → opa.toNat < 8 → 8 ≤ opb.toNat →
      ∃ t, step s = .next t ∧ OnlyLatches (.registerIndexOutOfRange .op2 opb) s t) ∧
    (s.pc.toNat ≤ 253 → ir ∈ [0x45#8, 0x50#8] → opa.toNat < 8 → s.readReg 7 = 0x00#8 →
      ∃ t, step s = .next t ∧ OnlyLatches (.addressOutOfRange .spUnderflow) s t) ∧
    (s.pc.toNat ≤ 253 →
      (ir = 0x11#8 ∧ s.readReg 7 = 0xFF#8) ∨ (ir = 0x46#8 ∧ opa.toNat < 7 ∧ s.readReg 7 = 0xFF#8) ∨
        (ir = 0x46#8 ∧ opa = 0x07#8 ∧ s.memRead (s.readReg 7) = 0xFF#8) →
      ∃ t, step s = .next t ∧ OnlyLatches (.addressOutOfRange .spOverflow) s t) ∧
    (s.pc.toNat = 253 →
      (ir = 0x82#8 ∧ opa.toNat < 8) ∨ (ir ∈ [0xA0#8, 0xA2#8, 0xA7#8] ∧ opa.toNat < 8 ∧ opb.toNat < 8) →
      ∃ t, step s = .next t ∧ OnlyLatches (.addressOutOfRange .pcAdvance) s t) ∧
    (s.pc.toNat ≤ 253 → ir ∈ opcodeValues → (ir ≠ 0x01#8 → ir ≠ 0x11#8 → opa.toNat < 8) →
      (ir ∈ [0xA0#8, 0xA2#8, 0xA7#8] → opb.toNat < 8) → (ir ∈ [0x45#8, 0x50#8] → s.readReg 7 ≠ 0x00#8) →
      (ir = 0x11#8 → s.readReg 7 ≠ 0xFF#8) → (ir = 0x46#8 → opa ≠ 0x07#8 → s.readReg 7 ≠ 0xFF#8) →
      (ir = 0x46#8 → opa = 0x07#8 → s.memRead (s.readReg 7) ≠ 0xFF#8) →
      (ir ∈ [0x82#8, 0xA0#8, 0xA2#8, 0xA7#8] → s.pc.toNat ≤ 252) → ∃ t, step s = .next t ∧ t.fault = none)

/-- R158, R14: a faulting step sets the latch, with the address of the faulting instruction, and changes nothing else;
the machine then takes no step (R159). That nothing is committed is the spec's decision D7 (log entry 3). -/
def Obligations.FaultingStepChangesOnlyTheLatch : Prop :=
  ∀ s t : State, step s = .next t → t.fault ≠ none →
    (∃ d, OnlyLatches d s t) ∧ t.running = true ∧ ∀ u, step t ≠ .next u

/-- The table of R157: where an instruction that can be fetched (R94) raises a fault, it is one the table gives it, with
the pc of that instruction, and a register index only where the byte names no register. -/
def Obligations.EachInstructionRaisesOnlyItsFaults : Prop :=
  ∀ (i : Instr) (s t : State) (r : FaultRecord), s.pc.toNat ≤ 253 → s.fault = none → exec i s = .next t →
    t.fault = some r →
    r.pc = s.pc ∧ MayRaise i r.detail ∧ ∀ n v, r.detail = .registerIndexOutOfRange n v → 8 ≤ v.toNat

/-- R74, R96: a register-index byte above 7 raises RegisterIndexOutOfRange with the operand's number and the whole byte,
operand 1 first, also for a jump that would not be taken. This is the spec's decision D6 (log entry 7). -/
def Obligations.BadRegisterIndexRaises : Prop :=
  (∀ (a : Byte) (s : State) (i : Instr), 8 ≤ a.toNat →
    i ∈ [.prn a, .push a, .pop a, .call a, .jmp a, .jeq a, .jne a] →
    ∃ t, exec i s = .next t ∧ OnlyLatches (.registerIndexOutOfRange .op1 a) s t) ∧
  (∀ (a b : Byte) (s : State) (i : Instr), 8 ≤ a.toNat → i ∈ [.ldi a b, .add a b, .mul a b, .cmp a b] →
    ∃ t, exec i s = .next t ∧ OnlyLatches (.registerIndexOutOfRange .op1 a) s t) ∧
  (∀ (a b : Byte) (s : State) (i : Instr), a.toNat < 8 → 8 ≤ b.toNat → i ∈ [.add a b, .mul a b, .cmp a b] →
    ∃ t, exec i s = .next t ∧ OnlyLatches (.registerIndexOutOfRange .op2 b) s t)

/-- R99, R192: a three-byte instruction at 253 raises AddressOutOfRange(pc_advance) and commits nothing. This is the
spec's decision D4 (log entry 5). -/
def Obligations.ThreeByteInstructionAt253Raises : Prop :=
  ∀ (a b : RegIndex) (imm : Byte) (s : State) (i : Instr), s.pc.toNat = 253 →
    i ∈ [.ldi (regByte a) imm, .add (regByte a) (regByte b), .mul (regByte a) (regByte b), .cmp (regByte a) (regByte b)] →
    ∃ t, exec i s = .next t ∧ OnlyLatches (.addressOutOfRange .pcAdvance) s t

/-- R120: PUSH and CALL at stack pointer 0, and POP and RET whose increment would pass 255, raise and commit nothing; for
`POP R7` it is the popped byte that is incremented (R123). This is the spec's decisions D5 and D10 (log entries 6
and 10). -/
def Obligations.StackPointerStepsRaiseAtTheEnds : Prop :=
  (∀ (a : RegIndex) (s : State) (i : Instr), s.readReg 7 = 0x00#8 → i ∈ [.push (regByte a), .call (regByte a)] →
    ∃ t, exec i s = .next t ∧ OnlyLatches (.addressOutOfRange .spUnderflow) s t) ∧
  (∀ (a : RegIndex) (s : State), a ≠ 7 → s.readReg 7 = 0xFF#8 →
    ∃ t, exec (.pop (regByte a)) s = .next t ∧ OnlyLatches (.addressOutOfRange .spOverflow) s t) ∧
  (∀ s : State, s.memRead (s.readReg 7) = 0xFF#8 →
    ∃ t, exec (.pop 0x07#8) s = .next t ∧ OnlyLatches (.addressOutOfRange .spOverflow) s t) ∧
  (∀ s : State, s.readReg 7 = 0xFF#8 →
    ∃ t, exec .ret s = .next t ∧ OnlyLatches (.addressOutOfRange .spOverflow) s t)

/-! ### Rules about one piece of state and every instruction -/

/-- R30: only CMP writes FL, and it overwrites all three bits; JEQ and JNE read bit E and no other bit; no other
instruction reads any bit of FL, so none saves, restores or moves it. -/
def Obligations.FlagsAreSetByCmpAndReadByJumps : Prop :=
  (∀ (i : Instr) (s t : State), exec i s = .next t → (∀ a b, i ≠ .cmp a b) → t.fl = s.fl) ∧
  (∀ (a b : RegIndex) (s : State) (f : FlagBits), s.pc.toNat ≤ 252 →
    exec (.cmp (regByte a) (regByte b)) (s.setFl f) = exec (.cmp (regByte a) (regByte b)) s) ∧
  (∀ (i : Instr) (s t : State) (f : FlagBits), exec i s = .next t → (∀ a b, i ≠ .cmp a b) →
    f.getLsbD 0 = s.fl.getLsbD 0 → exec i (s.setFl f) = .next (t.setFl f)) ∧
  (∀ (i : Instr) (s t : State) (f : FlagBits), exec i s = .next t → (∀ a b, i ≠ .cmp a b) → (∀ a, i ≠ .jeq a) →
    (∀ a, i ≠ .jne a) → exec i (s.setFl f) = .next (t.setFl f)) ∧
  (∀ (a : RegIndex) (s t : State), s.pc.toNat ≤ 253 → exec (.jeq (regByte a)) s = .next t →
    t.pc = if s.fl.getLsbD 0 then s.readReg a else s.pc + 2#8) ∧
  (∀ (a : RegIndex) (s t : State), s.pc.toNat ≤ 253 → exec (.jne (regByte a)) s = .next t →
    t.pc = if s.fl.getLsbD 0 then s.pc + 2#8 else s.readReg a)

/-- R142 and R36: `Emit(v)` appends `v` to the output stream and does nothing else; only PRN uses it, once for each
execution; nothing removes or changes an element, and nothing reads the stream. That the stream is empty at reset,
unbounded and append-only is the spec's decision D11 (log entry 11). -/
def Obligations.OutputIsAppendedByPrnAndNeverRead : Prop :=
  State.reset.out = [] ∧
  (∀ (s : State) (v : Byte), (s.emit v).out = s.out ++ [v] ∧ KeepsRegsExcept [] s (s.emit v) ∧ (s.emit v).pc = s.pc ∧
    (s.emit v).fl = s.fl ∧ (s.emit v).running = s.running ∧ (s.emit v).fault = s.fault ∧ KeepsMem s (s.emit v)) ∧
  (∀ (a : RegIndex) (s t : State), s.pc.toNat ≤ 253 → exec (.prn (regByte a)) s = .next t →
    t.out = s.out ++ [s.readReg a]) ∧
  (∀ (i : Instr) (s t : State), exec i s = .next t → (∀ a, i ≠ .prn a) → t.out = s.out) ∧
  (∀ s t : State, step s = .next t → ∃ new, t.out = s.out ++ new ∧ new.length ≤ 1 ∧
    ∀ o, step { s with out := o } = .next { t with out := o ++ new })

/-- R33: the Running flag is true at construction, only HLT writes it, only to false, and it is never set again; once it
is clear the loop is over. -/
def Obligations.RunningIsClearedOnlyByHlt : Prop :=
  State.reset.running = true ∧
  (∀ (i : Instr) (s t : State), exec i s = .next t → i ≠ .hlt → t.running = s.running) ∧
  (∀ s t : State, exec .hlt s = .next t → s.pc.toNat ≤ 253 → t.running = false) ∧
  (∀ s t : State, step s = .next t → t.running = false → DecodesAt s .hlt) ∧
  (∀ s t : State, s.running = false → step s ≠ .next t)

/-- R117: ADD and MUL never write FL, and CMP never writes a register. -/
def Obligations.ArithmeticAndFlagsAreIndependent : Prop :=
  ∀ (a b : Byte) (s t : State),
    (exec (.add a b) s = .next t → t.fl = s.fl) ∧ (exec (.mul a b) s = .next t → t.fl = s.fl) ∧
    (exec (.cmp a b) s = .next t → ∀ i, t.readReg i = s.readReg i)

/-- R98: HLT, LDI, PRN, ADD, MUL, PUSH, POP and CMP end with the pc at `A + width`; CALL, RET, JMP, JEQ and JNE write the
pc themselves and no increment is added; JEQ and JNE not taken write `A + 2`. The premises say that the instruction
completed. That `CALL R7` ends at the decremented pointer is the spec's decision D10 (log entry 10), that HLT advances the
pc at all is D16 (log entry 16), and the clauses at 254 and 255, where no step executes an instruction, rest on log
entry 18. -/
def Obligations.PcEndsWhereTheRuleSays : Prop :=
  ∀ (s t : State) (a b : RegIndex) (imm : Byte), s.fault = none → t.fault = none →
    (exec .hlt s = .next t → t.pc.toNat = s.pc.toNat + 1) ∧
    (∀ i ∈ [.prn (regByte a), .push (regByte a), .pop (regByte a)], exec i s = .next t →
      t.pc.toNat = s.pc.toNat + 2) ∧
    (∀ i ∈ [.ldi (regByte a) imm, .add (regByte a) (regByte b), .mul (regByte a) (regByte b),
        .cmp (regByte a) (regByte b)], exec i s = .next t → t.pc.toNat = s.pc.toNat + 3) ∧
    (exec (.call (regByte a)) s = .next t → t.pc = t.readReg a) ∧
    (exec .ret s = .next t → t.pc = s.memRead (s.readReg 7)) ∧
    (exec (.jmp (regByte a)) s = .next t → t.pc = s.readReg a) ∧
    (exec (.jeq (regByte a)) s = .next t → s.fl.getLsbD 0 = true → t.pc = s.readReg a) ∧
    (exec (.jeq (regByte a)) s = .next t → s.fl.getLsbD 0 = false → t.pc.toNat = s.pc.toNat + 2) ∧
    (exec (.jne (regByte a)) s = .next t → s.fl.getLsbD 0 = false → t.pc = s.readReg a) ∧
    (exec (.jne (regByte a)) s = .next t → s.fl.getLsbD 0 = true → t.pc.toNat = s.pc.toNat + 2)

/-- The table of R23: an instruction changes no register the table does not say it writes, and no register the table does
not say it reads has any influence on it. -/
def Obligations.OnlyTheTabledRegistersAreReadAndWritten : Prop :=
  ∀ (i : Instr) (s t : State), exec i s = .next t →
    (∀ j, ¬ WritesReg i j → t.readReg j = s.readReg j) ∧
    (∀ j v, ¬ ReadsReg s i j → ¬ WritesReg i j → exec i (s.writeReg j v) = .next (t.writeReg j v)) ∧
    (∀ j v, ¬ ReadsReg s i j → WritesReg i j → t.fault = none → exec i (s.writeReg j v) = .next t)

/-! ### Each instruction: it completes, its result, and what it leaves unchanged -/

/-- LDI (R111): the immediate is stored unchanged, whatever byte it is. It completes at 0 to 252 (decisions D3 and D4, log
entries 4 and 5). -/
def Obligations.LdiLoadsTheImmediate : Prop :=
  ∀ (a : RegIndex) (imm : Byte) (s : State), s.pc.toNat ≤ 252 →
    ∃ t, exec (.ldi (regByte a) imm) s = .next t ∧ t.readReg a = imm ∧ t.pc.toNat = s.pc.toNat + 3 ∧
      KeepsRegsExcept [a] s t ∧ t.fl = s.fl ∧ t.running = s.running ∧ t.fault = s.fault ∧ t.out = s.out ∧ KeepsMem s t

/-- ADD (R112): the sum modulo 256, also when both operands are one register, and with R7 as destination like any other.
It completes at 0 to 252 (decisions D3 and D4, log entries 4 and 5). -/
def Obligations.AddStoresTheSumModulo256 : Prop :=
  ∀ (a b : RegIndex) (s : State), s.pc.toNat ≤ 252 →
    ∃ t, exec (.add (regByte a) (regByte b)) s = .next t ∧
      (t.readReg a).toNat = ((s.readReg a).toNat + (s.readReg b).toNat) % 256 ∧ t.pc.toNat = s.pc.toNat + 3 ∧
      KeepsRegsExcept [a] s t ∧ t.fl = s.fl ∧ t.running = s.running ∧ t.fault = s.fault ∧ t.out = s.out ∧ KeepsMem s t

/-- MUL (R113): the low eight bits of the exact product. It completes at 0 to 252 (decisions D3 and D4, log entries 4
and 5). -/
def Obligations.MulStoresTheProductModulo256 : Prop :=
  ∀ (a b : RegIndex) (s : State), s.pc.toNat ≤ 252 →
    ∃ t, exec (.mul (regByte a) (regByte b)) s = .next t ∧
      (t.readReg a).toNat = ((s.readReg a).toNat * (s.readReg b).toNat) % 256 ∧ t.pc.toNat = s.pc.toNat + 3 ∧
      KeepsRegsExcept [a] s t ∧ t.fl = s.fl ∧ t.running = s.running ∧ t.fault = s.fault ∧ t.out = s.out ∧ KeepsMem s t

/-- CMP (R114, R31): exactly one of L, G and E is set, by the order of the two registers as unsigned numbers, and no
register changes. The unsigned order is the spec's decision D12 (log entry 12); it completes at 0 to 252 (decisions D3 and
D4, log entries 4 and 5). -/
def Obligations.CmpSetsExactlyOneFlag : Prop :=
  ∀ (a b : RegIndex) (s : State), s.pc.toNat ≤ 252 →
    ∃ t, exec (.cmp (regByte a) (regByte b)) s = .next t ∧
      (t.fl.getLsbD 2 = true ↔ (s.readReg a).toNat < (s.readReg b).toNat) ∧
      (t.fl.getLsbD 1 = true ↔ (s.readReg b).toNat < (s.readReg a).toNat) ∧
      (t.fl.getLsbD 0 = true ↔ s.readReg a = s.readReg b) ∧
      (t.fl = 0b100#3 ∨ t.fl = 0b010#3 ∨ t.fl = 0b001#3) ∧ t.pc.toNat = s.pc.toNat + 3 ∧
      KeepsRegsExcept [] s t ∧ t.running = s.running ∧ t.fault = s.fault ∧ t.out = s.out ∧ KeepsMem s t

/-- PUSH (R122): the stack pointer is decremented, and the register's value is stored in the cell it then names; `PUSH R7`
stores the decremented pointer (decision D10, log entry 10). It completes at 0 to 253 with a stack pointer above 0
(decisions D3 and D5, log entries 4 and 6). -/
def Obligations.PushDecrementsThenStores : Prop :=
  ∀ (a : RegIndex) (s : State), s.readReg 7 ≠ 0x00#8 → s.pc.toNat ≤ 253 →
    ∃ t, exec (.push (regByte a)) s = .next t ∧ (t.readReg 7).toNat + 1 = (s.readReg 7).toNat ∧
      t.memRead (s.readReg 7 - 1#8) = (if a = 7 then s.readReg 7 - 1#8 else s.readReg a) ∧
      KeepsMemExcept (s.readReg 7 - 1#8) s t ∧ t.pc.toNat = s.pc.toNat + 2 ∧
      KeepsRegsExcept [7] s t ∧ t.fl = s.fl ∧ t.running = s.running ∧ t.fault = s.fault ∧ t.out = s.out

/-- POP (R123): the register gets the byte at the stack pointer, and the stack pointer is then incremented; `POP R7` ends
with the popped byte plus 1 (decision D10, log entry 10). It completes at 0 to 253 when the pointer to be incremented is
not 255 (decisions D3 and D5, log entries 4 and 6). -/
def Obligations.PopLoadsThenIncrements : Prop :=
  (∀ (a : RegIndex) (s : State), a ≠ 7 → s.readReg 7 ≠ 0xFF#8 → s.pc.toNat ≤ 253 →
    ∃ t, exec (.pop (regByte a)) s = .next t ∧ t.readReg a = s.memRead (s.readReg 7) ∧
      (t.readReg 7).toNat = (s.readReg 7).toNat + 1 ∧ t.pc.toNat = s.pc.toNat + 2 ∧ KeepsRegsExcept [a, 7] s t ∧
      t.fl = s.fl ∧ t.running = s.running ∧ t.fault = s.fault ∧ t.out = s.out ∧ KeepsMem s t) ∧
  (∀ s : State, s.memRead (s.readReg 7) ≠ 0xFF#8 → s.pc.toNat ≤ 253 →
    ∃ t, exec (.pop 0x07#8) s = .next t ∧ (t.readReg 7).toNat = (s.memRead (s.readReg 7)).toNat + 1 ∧
      t.pc.toNat = s.pc.toNat + 2 ∧ KeepsRegsExcept [7] s t ∧
      t.fl = s.fl ∧ t.running = s.running ∧ t.fault = s.fault ∧ t.out = s.out ∧ KeepsMem s t)

/-- CALL (R131): the stack pointer is decremented, the address of the CALL plus 2 is stored in the cell it then names, and
the pc is the register; `CALL R7` jumps to the decremented pointer (decision D10, log entry 10). It completes at 0 to 253
with a stack pointer above 0 (decisions D3 and D5, log entries 4 and 6). -/
def Obligations.CallPushesTheReturnAddress : Prop :=
  ∀ (a : RegIndex) (s : State), s.readReg 7 ≠ 0x00#8 → s.pc.toNat ≤ 253 →
    ∃ t, exec (.call (regByte a)) s = .next t ∧ (t.readReg 7).toNat + 1 = (s.readReg 7).toNat ∧
      (t.memRead (s.readReg 7 - 1#8)).toNat = s.pc.toNat + 2 ∧ KeepsMemExcept (s.readReg 7 - 1#8) s t ∧
      t.pc = (if a = 7 then s.readReg 7 - 1#8 else s.readReg a) ∧
      KeepsRegsExcept [7] s t ∧ t.fl = s.fl ∧ t.running = s.running ∧ t.fault = s.fault ∧ t.out = s.out

/-- RET (R132): the pc is the byte at the stack pointer, which is then incremented. It completes when the stack pointer is
not 255 (decision D5, log entry 6). -/
def Obligations.RetPopsThePc : Prop :=
  ∀ s : State, s.readReg 7 ≠ 0xFF#8 →
    ∃ t, exec .ret s = .next t ∧ t.pc = s.memRead (s.readReg 7) ∧ (t.readReg 7).toNat = (s.readReg 7).toNat + 1 ∧
      KeepsRegsExcept [7] s t ∧ t.fl = s.fl ∧ t.running = s.running ∧ t.fault = s.fault ∧ t.out = s.out ∧ KeepsMem s t

/-- JMP (R133): the pc is the register, and nothing else changes. -/
def Obligations.JmpLoadsThePc : Prop :=
  ∀ (a : RegIndex) (s : State),
    ∃ t, exec (.jmp (regByte a)) s = .next t ∧ t.pc = s.readReg a ∧
      KeepsRegsExcept [] s t ∧ t.fl = s.fl ∧ t.running = s.running ∧ t.fault = s.fault ∧ t.out = s.out ∧ KeepsMem s t

/-- JEQ (R134): taken exactly when E is set, so not before any CMP. It can be fetched at 0 to 253 (decision D3, log
entry 4). -/
def Obligations.JeqIsTakenExactlyWhenEIsSet : Prop :=
  ∀ (a : RegIndex) (s : State), s.pc.toNat ≤ 253 →
    ∃ t, exec (.jeq (regByte a)) s = .next t ∧ (s.fl.getLsbD 0 = true → t.pc = s.readReg a) ∧
      (s.fl.getLsbD 0 = false → t.pc.toNat = s.pc.toNat + 2) ∧
      KeepsRegsExcept [] s t ∧ t.fl = s.fl ∧ t.running = s.running ∧ t.fault = s.fault ∧ t.out = s.out ∧ KeepsMem s t

/-- JNE (R135): taken exactly when E is clear, so also before any CMP (90_conflicts.md C1). It can be fetched at 0 to 253
(decision D3, log entry 4). -/
def Obligations.JneIsTakenExactlyWhenEIsClear : Prop :=
  ∀ (a : RegIndex) (s : State), s.pc.toNat ≤ 253 →
    ∃ t, exec (.jne (regByte a)) s = .next t ∧ (s.fl.getLsbD 0 = false → t.pc = s.readReg a) ∧
      (s.fl.getLsbD 0 = true → t.pc.toNat = s.pc.toNat + 2) ∧
      KeepsRegsExcept [] s t ∧ t.fl = s.fl ∧ t.running = s.running ∧ t.fault = s.fault ∧ t.out = s.out ∧ KeepsMem s t

/-- HLT (R140): the Running flag is cleared, and a machine without a fault is then Halted and takes no step. The pc
advances by 1 (decision D16, log entry 16); it can be fetched at 0 to 253 (decision D3, log entry 4). -/
def Obligations.HltStopsTheMachine : Prop :=
  ∀ s : State, s.pc.toNat ≤ 253 →
    ∃ t, exec .hlt s = .next t ∧ t.running = false ∧ (s.fault = none → EndedNormally t ∧ step t = .fault .halted) ∧
      t.pc.toNat = s.pc.toNat + 1 ∧ KeepsRegsExcept [] s t ∧ t.fl = s.fl ∧ t.fault = s.fault ∧ t.out = s.out ∧
      KeepsMem s t

/-- PRN (R141): the register's byte is appended to the output stream. It can be fetched at 0 to 253 (decision D3, log
entry 4). -/
def Obligations.PrnAppendsTheRegister : Prop :=
  ∀ (a : RegIndex) (s : State), s.pc.toNat ≤ 253 →
    ∃ t, exec (.prn (regByte a)) s = .next t ∧ t.out = s.out ++ [s.readReg a] ∧ t.pc.toNat = s.pc.toNat + 2 ∧
      KeepsRegsExcept [] s t ∧ t.fl = s.fl ∧ t.running = s.running ∧ t.fault = s.fault ∧ KeepsMem s t

/-! ### Instructions together -/

/-- R116: `ADD a,b` and `ADD b,a` compute one value, and so do `MUL a,b` and `MUL b,a`; each writes its own first
operand. They complete at 0 to 252 (decisions D3 and D4, log entries 4 and 5). -/
def Obligations.AddAndMulAreCommutative : Prop :=
  ∀ (a b : RegIndex) (s : State), s.pc.toNat ≤ 252 →
    (∃ t u, exec (.add (regByte a) (regByte b)) s = .next t ∧ exec (.add (regByte b) (regByte a)) s = .next u ∧
      t.readReg a = u.readReg b) ∧
    (∃ t u, exec (.mul (regByte a) (regByte b)) s = .next t ∧ exec (.mul (regByte b) (regByte a)) s = .next u ∧
      t.readReg a = u.readReg b)

/-- R125: PUSH and then POP of one register, R7 included, leave every register as it was, and the cell below the old
stack pointer holding what was pushed. For R7 this rests on decision D10 (log entry 10). -/
def Obligations.PushThenPopRestores : Prop :=
  ∀ (a : RegIndex) (s : State), s.readReg 7 ≠ 0x00#8 → s.pc.toNat ≤ 251 →
    ∃ t u, exec (.push (regByte a)) s = .next t ∧ exec (.pop (regByte a)) t = .next u ∧
      KeepsRegsExcept [] s u ∧ u.pc.toNat = s.pc.toNat + 4 ∧ KeepsMemExcept (s.readReg 7 - 1#8) s u ∧
      u.memRead (s.readReg 7 - 1#8) = (if a = 7 then s.readReg 7 - 1#8 else s.readReg a)

/-- R126: `PUSH b` and then `POP a`, for registers other than R7, copy `x[b]` into `x[a]` and leave the stack pointer. -/
def Obligations.PushThenPopCopies : Prop :=
  ∀ (a b : RegIndex) (s : State), a ≠ 7 → b ≠ 7 → s.readReg 7 ≠ 0x00#8 → s.pc.toNat ≤ 251 →
    ∃ t u, exec (.push (regByte b)) s = .next t ∧ exec (.pop (regByte a)) t = .next u ∧
      u.readReg a = s.readReg b ∧ u.readReg 7 = s.readReg 7 ∧ KeepsRegsExcept [a] s u

/-- R136: a RET executed with the stack pointer the CALL left, while the slot still holds what the CALL stored, goes to
the address of the CALL plus 2 (90_conflicts.md C3) and restores the stack pointer. -/
def Obligations.CallThenRetReturns : Prop :=
  ∀ (a : RegIndex) (s : State), s.readReg 7 ≠ 0x00#8 → s.pc.toNat ≤ 253 →
    ∃ t, exec (.call (regByte a)) s = .next t ∧
      ∀ u : State, u.readReg 7 = t.readReg 7 → u.memRead (t.readReg 7) = t.memRead (t.readReg 7) →
        ∃ v, exec .ret u = .next v ∧ v.pc.toNat = s.pc.toNat + 2 ∧ v.readReg 7 = s.readReg 7

/-- R63: what PUSH and CALL store is what the very next fetch reads in that cell; every other byte of the fetch is as
before the store. That `PUSH R7` stored the decremented pointer is the spec's decision D10 (log entry 10); the bounds on
the pc are D3 (log entry 4). -/
def Obligations.StoreIsSeenByTheNextFetch : Prop :=
  ∀ (s t : State) (a : RegIndex) (i : Instr), i ∈ [.push (regByte a), .call (regByte a)] → s.status = .running →
    s.pc.toNat ≤ 253 → DecodesAt s i → step s = .next t → t.fault = none → t.pc.toNat ≤ 253 →
    ∃ f, fetch t = .ok f ∧ ∀ b : Byte, ∀ byte : Byte,
      ((b = t.pc ∧ byte = f.ir) ∨ (b = t.pc + 1#8 ∧ byte = f.opa) ∨ (b = t.pc + 2#8 ∧ byte = f.opb)) →
      (b ≠ t.readReg 7 → byte = s.memRead b) ∧
      (b = t.readReg 7 → i = .push (regByte a) → byte = t.readReg a) ∧
      (b = t.readReg 7 → i = .call (regByte a) → byte.toNat = s.pc.toNat + 2)

/-- R143: an element of the output stream is rendered as the shortest decimal numeral of its value and one line feed, and
the stream as its elements in order. This is the spec's decision D11 (log entry 11); that the digits have the codes 0x30
to 0x39 is the model's own choice (log entry 22). -/
def Obligations.OutputTextIsShortestDecimal : Prop :=
  (∀ v : Byte, ∃ digits : List Nat, renderByte v = digits.map (fun d => BitVec.ofNat 8 (0x30 + d)) ++ [0x0A#8] ∧
    (∀ d ∈ digits, d < 10) ∧ digits.foldl (fun n d => 10 * n + d) 0 = v.toNat ∧ digits ≠ [] ∧
    (digits.head? = some 0 → digits = [0])) ∧
  (∀ (s : State) (v : Byte), (s.emit v).outText = s.outText ++ renderByte v) ∧ State.reset.outText = []

/-! ### The invariant -/

/-- The state after reset is legal. -/
def Obligations.ResetStateIsLegal : Prop := Inv State.reset

/-- Every launch state is legal, whatever the image (R42). -/
def Obligations.EveryLaunchStateIsLegal : Prop := ∀ (image : List Byte) (s : State), load image = .ok s → Inv s

/-- Every step keeps a state legal: memory canonical, FL one of its four values (R31), a Faulted machine with `running`
set and a record that names the instruction at the pc and that the state explains (R152 to R157), and a Halted machine
standing just after a HLT (R140). The fault clauses rest on decisions D2 to D9, the pc after HLT on D16 (log entries 3 to
9 and 16), canonical memory on log entry 19. -/
def Obligations.EveryStepKeepsTheStateLegal : Prop := ∀ s t : State, Inv s → step s = .next t → Inv t

/-- Every state a run of any image reaches is legal; so FL is never anything but 000, 001, 010 or 100 (R31), and no state
is reached with `running` clear and a fault latched (R35). As in EveryStepKeepsTheStateLegal, the fault clauses rest on
decisions D2 to D9, the pc after HLT on D16 (log entries 3 to 9 and 16), canonical memory on log entry 19. -/
def Obligations.EveryReachedStateIsLegal : Prop :=
  ∀ (image : List Byte) (n : Nat) (t : State), RunOf image n t →
    Inv t ∧ FlagsLegal t.fl ∧ ¬ (t.running = false ∧ t.fault ≠ none)
end

