-- ==== Sys2Proof/Laws/Decode.lean ====
section
/-! SUPPORT. The small lemmas of the decoder, the encoder and the operand bytes. -/

namespace Sys2Proof

@[simp] theorem regByte_toNat (i : RegIndex) : (regByte i).toNat = i.val := by
  have := i.isLt
  simp only [regByte, BitVec.toNat_ofNat]
  omega

theorem regByte_inj (i j : RegIndex) : regByte i = regByte j ↔ i = j := by
  rw [← BitVec.toNat_inj, regByte_toNat, regByte_toNat, Fin.ext_iff]

/-- A byte below 8 names a register. -/
theorem exists_regByte (v : Byte) (h : v.toNat < 8) : v = regByte ⟨v.toNat, h⟩ := by
  rw [← BitVec.toNat_inj, regByte_toNat]

/-- Decoding an instruction's own opcode and operand bytes gives it back, whatever stands in the bytes beyond its width
(R73). -/
theorem decodeFetched_hlt (p q : Byte) : decodeFetched 0x01#8 p q = .ok .hlt := rfl
theorem decodeFetched_ldi (p q : Byte) : decodeFetched 0x82#8 p q = .ok (.ldi p q) := rfl
theorem decodeFetched_prn (p q : Byte) : decodeFetched 0x47#8 p q = .ok (.prn p) := rfl
theorem decodeFetched_add (p q : Byte) : decodeFetched 0xA0#8 p q = .ok (.add p q) := rfl
theorem decodeFetched_mul (p q : Byte) : decodeFetched 0xA2#8 p q = .ok (.mul p q) := rfl
theorem decodeFetched_push (p q : Byte) : decodeFetched 0x45#8 p q = .ok (.push p) := rfl
theorem decodeFetched_pop (p q : Byte) : decodeFetched 0x46#8 p q = .ok (.pop p) := rfl
theorem decodeFetched_call (p q : Byte) : decodeFetched 0x50#8 p q = .ok (.call p) := rfl
theorem decodeFetched_ret (p q : Byte) : decodeFetched 0x11#8 p q = .ok .ret := rfl
theorem decodeFetched_cmp (p q : Byte) : decodeFetched 0xA7#8 p q = .ok (.cmp p q) := rfl
theorem decodeFetched_jmp (p q : Byte) : decodeFetched 0x54#8 p q = .ok (.jmp p) := rfl
theorem decodeFetched_jeq (p q : Byte) : decodeFetched 0x55#8 p q = .ok (.jeq p) := rfl
theorem decodeFetched_jne (p q : Byte) : decodeFetched 0x56#8 p q = .ok (.jne p) := rfl

/-- Everything decoding can answer: one of the thirteen instructions, for its own opcode and with its own operand bytes,
or a refusal of a byte that is none of the thirteen opcodes. -/
theorem decodeFetched_cases (ir p q : Byte) :
    (ir = 0x01#8 ∧ decodeFetched ir p q = .ok .hlt) ∨ (ir = 0x82#8 ∧ decodeFetched ir p q = .ok (.ldi p q)) ∨
    (ir = 0x47#8 ∧ decodeFetched ir p q = .ok (.prn p)) ∨ (ir = 0xA0#8 ∧ decodeFetched ir p q = .ok (.add p q)) ∨
    (ir = 0xA2#8 ∧ decodeFetched ir p q = .ok (.mul p q)) ∨ (ir = 0x45#8 ∧ decodeFetched ir p q = .ok (.push p)) ∨
    (ir = 0x46#8 ∧ decodeFetched ir p q = .ok (.pop p)) ∨ (ir = 0x50#8 ∧ decodeFetched ir p q = .ok (.call p)) ∨
    (ir = 0x11#8 ∧ decodeFetched ir p q = .ok .ret) ∨ (ir = 0xA7#8 ∧ decodeFetched ir p q = .ok (.cmp p q)) ∨
    (ir = 0x54#8 ∧ decodeFetched ir p q = .ok (.jmp p)) ∨ (ir = 0x55#8 ∧ decodeFetched ir p q = .ok (.jeq p)) ∨
    (ir = 0x56#8 ∧ decodeFetched ir p q = .ok (.jne p)) ∨
    (ir ∉ opcodeValues ∧ decodeFetched ir p q = .error (.unsupportedOperation ir)) := by
  by_cases h : ir ∈ opcodeValues
  · simp only [opcodeValues, List.mem_cons, List.not_mem_nil, or_false] at h
    rcases h with rfl | rfl | rfl | rfl | rfl | rfl | rfl | rfl | rfl | rfl | rfl | rfl | rfl <;> simp [decodeFetched]
  · have h' := h
    simp only [opcodeValues, List.mem_cons, List.not_mem_nil, or_false, not_or] at h'
    simp [decodeFetched, h, h']

/-- Each of the thirteen opcodes decodes, whatever bytes follow it (R95). -/
theorem decodeFetched_of_mem (ir p q : Byte) (h : ir ∈ opcodeValues) : ∃ i, decodeFetched ir p q = .ok i := by
  simp only [opcodeValues, List.mem_cons, List.not_mem_nil, or_false] at h
  rcases h with rfl | rfl | rfl | rfl | rfl | rfl | rfl | rfl | rfl | rfl | rfl | rfl | rfl <;> exact ⟨_, rfl⟩

/-- What decodes has its own opcode in the first byte. -/
theorem opcode_of_decodeFetched (ir p q : Byte) (i : Instr) (h : decodeFetched ir p q = .ok i) : i.opcode = ir := by
  rcases decodeFetched_cases ir p q with h' | h' | h' | h' | h' | h' | h' | h' | h' | h' | h' | h' | h' | h' <;>
    rw [h'.2] at h <;> cases h <;> exact h'.1.symm

/-- "1, 2 or 3 bytes long" (R70). -/
theorem width_bounds (i : Instr) : 1 ≤ i.width ∧ i.width ≤ 3 := by
  unfold Instr.width
  cases i.format <;> decide

theorem opcode_mem (i : Instr) : i.opcode ∈ opcodeValues := by
  cases i <;> simp [Instr.opcode, opcodeValues]

end Sys2Proof
end

