-- ==== Sys2Proof/Laws/State.lean ====
section
/-! SUPPORT. For each update of the state, one lemma for each field it leaves or sets, so that no later proof unfolds a
record update; and reading registers after writing them. -/

namespace Sys2Proof.Machine

variable (s t : State) (i j : RegIndex) (v w a : Byte) (f : FlagBits) (d : FaultDetail)

@[simp] theorem State.writeReg_pc : (s.writeReg i v).pc = s.pc := rfl
@[simp] theorem State.writeReg_fl : (s.writeReg i v).fl = s.fl := rfl
@[simp] theorem State.writeReg_running : (s.writeReg i v).running = s.running := rfl
@[simp] theorem State.writeReg_fault : (s.writeReg i v).fault = s.fault := rfl
@[simp] theorem State.writeReg_out : (s.writeReg i v).out = s.out := rfl
@[simp] theorem State.writeReg_mem : (s.writeReg i v).mem = s.mem := rfl
@[simp] theorem State.writeReg_memRead : (s.writeReg i v).memRead w = s.memRead w := rfl
@[simp] theorem State.writeReg_flagE : (s.writeReg i v).flagE = s.flagE := rfl

@[simp] theorem State.setSp_pc : (s.setSp v).pc = s.pc := rfl
@[simp] theorem State.setSp_fl : (s.setSp v).fl = s.fl := rfl
@[simp] theorem State.setSp_running : (s.setSp v).running = s.running := rfl
@[simp] theorem State.setSp_fault : (s.setSp v).fault = s.fault := rfl
@[simp] theorem State.setSp_out : (s.setSp v).out = s.out := rfl
@[simp] theorem State.setSp_mem : (s.setSp v).mem = s.mem := rfl
@[simp] theorem State.setSp_memRead : (s.setSp v).memRead w = s.memRead w := rfl
@[simp] theorem State.setSp_flagE : (s.setSp v).flagE = s.flagE := rfl

@[simp] theorem State.setPc_x : (s.setPc v).x = s.x := rfl
@[simp] theorem State.setPc_pc : (s.setPc v).pc = v := rfl
@[simp] theorem State.setPc_fl : (s.setPc v).fl = s.fl := rfl
@[simp] theorem State.setPc_running : (s.setPc v).running = s.running := rfl
@[simp] theorem State.setPc_fault : (s.setPc v).fault = s.fault := rfl
@[simp] theorem State.setPc_out : (s.setPc v).out = s.out := rfl
@[simp] theorem State.setPc_mem : (s.setPc v).mem = s.mem := rfl
@[simp] theorem State.setPc_readReg : (s.setPc v).readReg j = s.readReg j := rfl
@[simp] theorem State.setPc_sp : (s.setPc v).sp = s.sp := rfl
@[simp] theorem State.setPc_memRead : (s.setPc v).memRead w = s.memRead w := rfl
@[simp] theorem State.setPc_flagE : (s.setPc v).flagE = s.flagE := rfl

@[simp] theorem State.setFl_x : (s.setFl f).x = s.x := rfl
@[simp] theorem State.setFl_pc : (s.setFl f).pc = s.pc := rfl
@[simp] theorem State.setFl_fl : (s.setFl f).fl = f := rfl
@[simp] theorem State.setFl_running : (s.setFl f).running = s.running := rfl
@[simp] theorem State.setFl_fault : (s.setFl f).fault = s.fault := rfl
@[simp] theorem State.setFl_out : (s.setFl f).out = s.out := rfl
@[simp] theorem State.setFl_mem : (s.setFl f).mem = s.mem := rfl
@[simp] theorem State.setFl_readReg : (s.setFl f).readReg j = s.readReg j := rfl
@[simp] theorem State.setFl_sp : (s.setFl f).sp = s.sp := rfl
@[simp] theorem State.setFl_memRead : (s.setFl f).memRead w = s.memRead w := rfl

@[simp] theorem State.stop_x : s.stop.x = s.x := rfl
@[simp] theorem State.stop_pc : s.stop.pc = s.pc := rfl
@[simp] theorem State.stop_fl : s.stop.fl = s.fl := rfl
@[simp] theorem State.stop_running : s.stop.running = false := rfl
@[simp] theorem State.stop_fault : s.stop.fault = s.fault := rfl
@[simp] theorem State.stop_out : s.stop.out = s.out := rfl
@[simp] theorem State.stop_mem : s.stop.mem = s.mem := rfl
@[simp] theorem State.stop_readReg : s.stop.readReg j = s.readReg j := rfl
@[simp] theorem State.stop_sp : s.stop.sp = s.sp := rfl
@[simp] theorem State.stop_memRead : s.stop.memRead w = s.memRead w := rfl
@[simp] theorem State.stop_flagE : s.stop.flagE = s.flagE := rfl

@[simp] theorem State.emit_x : (s.emit v).x = s.x := rfl
@[simp] theorem State.emit_pc : (s.emit v).pc = s.pc := rfl
@[simp] theorem State.emit_fl : (s.emit v).fl = s.fl := rfl
@[simp] theorem State.emit_running : (s.emit v).running = s.running := rfl
@[simp] theorem State.emit_fault : (s.emit v).fault = s.fault := rfl
@[simp] theorem State.emit_out : (s.emit v).out = s.out ++ [v] := rfl
@[simp] theorem State.emit_mem : (s.emit v).mem = s.mem := rfl
@[simp] theorem State.emit_readReg : (s.emit v).readReg j = s.readReg j := rfl
@[simp] theorem State.emit_sp : (s.emit v).sp = s.sp := rfl
@[simp] theorem State.emit_memRead : (s.emit v).memRead w = s.memRead w := rfl
@[simp] theorem State.emit_flagE : (s.emit v).flagE = s.flagE := rfl

@[simp] theorem State.memWrite_x : (s.memWrite a v).x = s.x := rfl
@[simp] theorem State.memWrite_pc : (s.memWrite a v).pc = s.pc := rfl
@[simp] theorem State.memWrite_fl : (s.memWrite a v).fl = s.fl := rfl
@[simp] theorem State.memWrite_running : (s.memWrite a v).running = s.running := rfl
@[simp] theorem State.memWrite_fault : (s.memWrite a v).fault = s.fault := rfl
@[simp] theorem State.memWrite_out : (s.memWrite a v).out = s.out := rfl
@[simp] theorem State.memWrite_mem : (s.memWrite a v).mem = s.mem.write a.toNat v := rfl
@[simp] theorem State.memWrite_readReg : (s.memWrite a v).readReg j = s.readReg j := rfl
@[simp] theorem State.memWrite_sp : (s.memWrite a v).sp = s.sp := rfl
@[simp] theorem State.memWrite_flagE : (s.memWrite a v).flagE = s.flagE := rfl

@[simp] theorem State.raise_x : (s.raise d).x = s.x := rfl
@[simp] theorem State.raise_pc : (s.raise d).pc = s.pc := rfl
@[simp] theorem State.raise_fl : (s.raise d).fl = s.fl := rfl
@[simp] theorem State.raise_running : (s.raise d).running = s.running := rfl
@[simp] theorem State.raise_fault : (s.raise d).fault = some { pc := s.pc, detail := d } := rfl
@[simp] theorem State.raise_out : (s.raise d).out = s.out := rfl
@[simp] theorem State.raise_mem : (s.raise d).mem = s.mem := rfl
@[simp] theorem State.raise_readReg : (s.raise d).readReg j = s.readReg j := rfl
@[simp] theorem State.raise_sp : (s.raise d).sp = s.sp := rfl
@[simp] theorem State.raise_memRead : (s.raise d).memRead w = s.memRead w := rfl
@[simp] theorem State.raise_flagE : (s.raise d).flagE = s.flagE := rfl

theorem State.sp_eq_readReg : s.sp = s.readReg 7 := rfl

/-- Reading a register after writing one. -/
theorem State.readReg_writeReg : (s.writeReg i v).readReg j = if i = j then v else s.readReg j := by
  simp only [State.readReg, State.writeReg, Vector.getElem_set, Fin.ext_iff]

@[simp] theorem State.readReg_writeReg_same : (s.writeReg i v).readReg i = v := by
  simp [State.readReg_writeReg]

theorem State.readReg_writeReg_ne (h : i ≠ j) : (s.writeReg i v).readReg j = s.readReg j := by
  simp [State.readReg_writeReg, h]

/-- Reading a register after setting the stack pointer. -/
theorem State.readReg_setSp : (s.setSp v).readReg j = if 7 = j then v else s.readReg j :=
  State.readReg_writeReg s 7 j v

@[simp] theorem State.sp_setSp : (s.setSp v).sp = v := State.readReg_writeReg_same s 7 v

theorem State.sp_writeReg : (s.writeReg i v).sp = if i = 7 then v else s.sp :=
  State.readReg_writeReg s i 7 v

/-- Writes to two registers can be made in either order. -/
theorem State.writeReg_comm (h : i ≠ j) : (s.writeReg i v).writeReg j w = (s.writeReg j w).writeReg i v := by
  have h' : i.val ≠ j.val := fun e => h (Fin.ext e)
  simp only [State.writeReg, Vector.set_comm _ _ h']

/-- A second write to a register hides the first. -/
@[simp] theorem State.writeReg_writeReg : (s.writeReg i v).writeReg i w = s.writeReg i w := by
  simp [State.writeReg]

/-- A register file is known by what its registers read as. -/
theorem State.x_ext (h : ∀ i, t.readReg i = s.readReg i) : t.x = s.x :=
  Vector.ext fun k hk => h ⟨k, hk⟩

/-- What raising a fault leaves. -/
theorem State.raise_onlyLatches : OnlyLatches d s (s.raise d) :=
  ⟨rfl, fun _ _ => rfl, rfl, rfl, rfl, rfl, fun _ => rfl⟩

theorem State.status_running_iff : s.status = .running ↔ s.running = true ∧ s.fault = none := by
  unfold State.status
  cases s.fault <;> cases s.running <;> simp

theorem State.status_halted_iff : s.status = .halted ↔ s.running = false ∧ s.fault = none := by
  unfold State.status
  cases s.fault <;> cases s.running <;> simp

theorem State.status_faulted_iff (r : FaultRecord) : s.status = .faulted r ↔ s.fault = some r := by
  unfold State.status
  cases s.fault <;> cases s.running <;> simp

end Sys2Proof.Machine
end

