-- ==== Sys2Proof/Laws/Memory.lean ====
section
/-! SUPPORT. What reading gives after a write, and that every memory operation keeps the canonical form. -/

namespace Sys2Proof.Machine

@[simp] theorem Memory.read_nil (a : Nat) : Memory.read [] a = 0x00#8 := rfl

theorem Memory.read_cons (c : Host.Cell) (m : Memory) (a : Nat) :
    Memory.read (c :: m) a = if c.1 = a then c.2 else Memory.read m a := rfl

theorem Memory.read_erase (m : Memory) (a b : Nat) :
    (m.erase a).read b = if b = a then 0x00#8 else m.read b := by
  induction m with
  | nil => simp [Memory.erase]
  | cons c m ih =>
    by_cases hc : c.1 = a
    · by_cases hb : b = a
      · simp_all [Memory.erase]
      · have : ¬ c.1 = b := by omega
        simp_all [Memory.erase, Memory.read_cons]
    · by_cases hb : b = a
      · simp_all [Memory.erase, Memory.read_cons]
      · simp [Memory.erase, Memory.read_cons, hc, ih, hb]

theorem Memory.read_insert (m : Memory) (a b : Nat) (v : Byte) (h : ∀ c ∈ m, c.1 ≠ a) :
    (m.insert a v).read b = if b = a then v else m.read b := by
  induction m with
  | nil => simp [Memory.insert, Memory.read_cons, eq_comm]
  | cons c m ih =>
    have hc : c.1 ≠ a := h c (by simp)
    have ih := ih fun c hm => h c (by simp [hm])
    unfold Memory.insert
    split
    · simp [Memory.read_cons, eq_comm]
    · by_cases hb : b = a
      · subst hb
        simp [Memory.read_cons, ih, hc]
      · simp [Memory.read_cons, ih, hb]

theorem Memory.erase_not_listed (m : Memory) (a : Nat) : ∀ c ∈ m.erase a, c.1 ≠ a := by
  induction m with
  | nil => simp [Memory.erase]
  | cons c m ih =>
    unfold Memory.erase
    split
    · exact ih
    · intro c' hc'
      rcases List.mem_cons.mp hc' with rfl | hm
      · assumption
      · exact ih c' hm

/-- Reading after a write: the written cell holds the byte written, every other cell what it held. -/
theorem Memory.read_write (m : Memory) (a b : Nat) (v : Byte) :
    (m.write a v).read b = if b = a then v else m.read b := by
  unfold Memory.write
  split
  · subst v
    exact Memory.read_erase m a b
  · rw [Memory.read_insert _ _ _ _ (Memory.erase_not_listed m a), Memory.read_erase]
    split <;> rfl

theorem State.memRead_memWrite (s : State) (a b v : Byte) :
    (s.memWrite a v).memRead b = if b = a then v else s.memRead b := by
  simp only [State.memRead, State.memWrite, Memory.read_write, BitVec.toNat_inj]

/-! ### The canonical form -/

theorem Memory.wfFrom_cons (lo : Nat) (c : Host.Cell) (m : Memory) :
    Memory.wfFrom lo (c :: m) = true ↔ lo ≤ c.1 ∧ c.1 < 256 ∧ c.2 ≠ 0x00#8 ∧ Memory.wfFrom (c.1 + 1) m = true := by
  simp [Memory.wfFrom, and_assoc]

theorem Memory.wfFrom_mono (lo lo' : Nat) (m : Memory) (h : Memory.wfFrom lo m = true) (hlo : lo' ≤ lo) :
    Memory.wfFrom lo' m = true := by
  cases m with
  | nil => rfl
  | cons c m =>
    rw [Memory.wfFrom_cons] at h ⊢
    exact ⟨by omega, h.2⟩

theorem Memory.erase_wf (lo : Nat) (m : Memory) (a : Nat) (h : Memory.wfFrom lo m = true) :
    Memory.wfFrom lo (m.erase a) = true := by
  induction m generalizing lo with
  | nil => rfl
  | cons c m ih =>
    rw [Memory.wfFrom_cons] at h
    unfold Memory.erase
    split
    · exact Memory.wfFrom_mono _ _ _ (ih _ h.2.2.2) (by omega)
    · rw [Memory.wfFrom_cons]
      exact ⟨h.1, h.2.1, h.2.2.1, ih _ h.2.2.2⟩

theorem Memory.insert_wf (lo : Nat) (m : Memory) (a : Nat) (v : Byte) (h : Memory.wfFrom lo m = true)
    (hm : ∀ c ∈ m, c.1 ≠ a) (hlo : lo ≤ a) (ha : a < 256) (hv : v ≠ 0x00#8) :
    Memory.wfFrom lo (m.insert a v) = true := by
  induction m generalizing lo with
  | nil =>
    simp only [Memory.insert, Memory.wfFrom_cons]
    exact ⟨hlo, ha, hv, rfl⟩
  | cons c m ih =>
    rw [Memory.wfFrom_cons] at h
    have hc : c.1 ≠ a := hm c (by simp)
    unfold Memory.insert
    split
    · rw [Memory.wfFrom_cons, Memory.wfFrom_cons]
      exact ⟨hlo, ha, hv, by show a + 1 ≤ c.1; omega, h.2⟩
    · rw [Memory.wfFrom_cons]
      exact ⟨h.1, h.2.1, h.2.2.1, ih _ h.2.2.2 (fun c hcm => hm c (by simp [hcm])) (by omega)⟩

/-- A write within the address space keeps the canonical form. -/
theorem Memory.write_wf (m : Memory) (a : Nat) (v : Byte) (h : m.wf = true) (ha : a < 256) :
    (m.write a v).wf = true := by
  unfold Memory.write
  split
  · exact Memory.erase_wf 0 m a h
  · exact Memory.insert_wf 0 _ a v (Memory.erase_wf 0 m a h) (Memory.erase_not_listed m a) (by omega) ha ‹_›

theorem State.memWrite_wf (s : State) (a v : Byte) (h : s.mem.wf = true) : (s.memWrite a v).mem.wf = true :=
  Memory.write_wf s.mem a.toNat v h a.isLt

/-- Placing bytes within the address space keeps the canonical form. -/
theorem Memory.place_wf (m : Memory) (a : Nat) (bytes : List Byte) (h : m.wf = true) (ha : a + bytes.length ≤ 256) :
    (m.place a bytes).wf = true := by
  induction bytes generalizing m a with
  | nil => exact h
  | cons b rest ih =>
    have hlen : a + (rest.length + 1) ≤ 256 := ha
    exact ih _ _ (Memory.write_wf m a b h (by omega)) (by omega)

theorem State.placeAtPc_wf (s : State) (bytes : List Byte) (h : s.mem.wf = true) : (s.placeAtPc bytes).mem.wf = true := by
  have hpc := s.pc.isLt
  exact Memory.place_wf s.mem _ _ h (by rw [List.length_take]; show _ + min (256 - _) _ ≤ _; omega)

theorem State.withFetchWord_wf (s : State) (nbits w : Nat) (h : s.mem.wf = true) :
    (s.withFetchWord nbits w).mem.wf = true :=
  State.placeAtPc_wf s _ h

theorem State.reset_mem_wf : State.reset.mem.wf = true := rfl

/-- What a cell reads as after placing bytes from `a` on. -/
theorem Memory.read_place (m : Memory) (a b : Nat) (bytes : List Byte) :
    (m.place a bytes).read b =
      if a ≤ b ∧ b < a + bytes.length then bytes.getD (b - a) 0x00#8 else m.read b := by
  induction bytes generalizing m a with
  | nil =>
    have : ¬ (a ≤ b ∧ b < a + ([] : List Byte).length) := by simp only [List.length_nil]; omega
    rw [if_neg this, Memory.place]
  | cons v rest ih =>
    simp only [Memory.place, ih, Memory.read_write, List.length_cons]
    by_cases h1 : a + 1 ≤ b ∧ b < a + 1 + rest.length
    · have h2 : a ≤ b ∧ b < a + (rest.length + 1) := by omega
      obtain ⟨k, hk⟩ : ∃ k, b - a = k + 1 := ⟨b - a - 1, by omega⟩
      have hk' : b - (a + 1) = k := by omega
      rw [if_pos h1, if_pos h2, hk, hk', List.getD_cons_succ]
    · by_cases h3 : b = a
      · subst h3
        have h2 : b ≤ b ∧ b < b + (rest.length + 1) := by omega
        rw [if_neg h1, if_pos rfl, if_pos h2, Nat.sub_self, List.getD_cons_zero]
      · have h2 : ¬ (a ≤ b ∧ b < a + (rest.length + 1)) := by omega
        rw [if_neg h1, if_neg h3, if_neg h2]

end Sys2Proof.Machine
end

