-- ==== Sys2Proof/Laws/Ops.lean ====
section
/-! SUPPORT. For each shared operation that may raise, everything it can answer; callers cite these and do not unfold
the operation. -/

namespace Sys2Proof.Machine

variable {s t u : State} {n : OperandNo} {v a b : Byte} {w : Nat}

/-! ### The sequential advance -/

theorem seqNext_fits (k : Byte → Result) (h : s.pc.toNat + w ≤ 255) :
    seqNext w s k = k (BitVec.ofNat 8 (s.pc.toNat + w)) := if_pos h

theorem seqNext_passes (k : Byte → Result) (h : ¬ s.pc.toNat + w ≤ 255) :
    seqNext w s k = .next (s.raise (.addressOutOfRange .pcAdvance)) := if_neg h

/-- Everything the sequential advance can do. -/
theorem seqNext_cases {k : Byte → Result} (h : seqNext w s k = .next t) :
    (s.pc.toNat + w ≤ 255 ∧ k (BitVec.ofNat 8 (s.pc.toNat + w)) = .next t) ∨
    (255 < s.pc.toNat + w ∧ t = s.raise (.addressOutOfRange .pcAdvance)) := by
  by_cases hw : s.pc.toNat + w ≤ 255
  · exact .inl ⟨hw, seqNext_fits k hw ▸ h⟩
  · rw [seqNext_passes k hw] at h
    exact .inr ⟨by omega, by simpa using h.symm⟩

/-- The address a sequential advance gives, as a number: it does not wrap (R99). -/
theorem toNat_advance (h : s.pc.toNat + w ≤ 255) : (BitVec.ofNat 8 (s.pc.toNat + w)).toNat = s.pc.toNat + w := by
  rw [BitVec.toNat_ofNat]
  omega

/-! ### The stack-pointer steps -/

theorem spDecrement_ok (k : State → Result) (h : t.sp ≠ 0x00#8) :
    spDecrement s t k = k (t.setSp (t.sp - 1#8)) := if_neg h

theorem spDecrement_zero (k : State → Result) (h : t.sp = 0x00#8) :
    spDecrement s t k = .next (s.raise (.addressOutOfRange .spUnderflow)) := if_pos h

/-- Everything the decrement can do. -/
theorem spDecrement_cases {k : State → Result} (h : spDecrement s t k = .next u) :
    (t.sp ≠ 0x00#8 ∧ k (t.setSp (t.sp - 1#8)) = .next u) ∨
    (t.sp = 0x00#8 ∧ u = s.raise (.addressOutOfRange .spUnderflow)) := by
  by_cases hz : t.sp = 0x00#8
  · rw [spDecrement_zero k hz] at h
    exact .inr ⟨hz, by simpa using h.symm⟩
  · exact .inl ⟨hz, spDecrement_ok k hz ▸ h⟩

theorem spIncrement_ok (k : State → Result) (h : t.sp ≠ 0xFF#8) :
    spIncrement s t k = k (t.setSp (t.sp + 1#8)) := if_neg h

theorem spIncrement_top (k : State → Result) (h : t.sp = 0xFF#8) :
    spIncrement s t k = .next (s.raise (.addressOutOfRange .spOverflow)) := if_pos h

/-- Everything the increment can do. -/
theorem spIncrement_cases {k : State → Result} (h : spIncrement s t k = .next u) :
    (t.sp ≠ 0xFF#8 ∧ k (t.setSp (t.sp + 1#8)) = .next u) ∨
    (t.sp = 0xFF#8 ∧ u = s.raise (.addressOutOfRange .spOverflow)) := by
  by_cases hz : t.sp = 0xFF#8
  · rw [spIncrement_top k hz] at h
    exact .inr ⟨hz, by simpa using h.symm⟩
  · exact .inl ⟨hz, spIncrement_ok k hz ▸ h⟩

/-! ### Register operands -/

@[simp] theorem withReg_regByte (k : RegIndex → Result) (i : RegIndex) : withReg n (regByte i) s k = k i := by
  have h : (regByte i).toNat < 8 := by simp
  simp only [withReg, dif_pos h]
  congr 1
  exact Fin.ext (regByte_toNat i)

theorem withReg_bad (k : RegIndex → Result) (h : 8 ≤ v.toNat) :
    withReg n v s k = .next (s.raise (.registerIndexOutOfRange n v)) := dif_neg (by omega)

/-- Everything a register operand can do. -/
theorem withReg_cases {k : RegIndex → Result} (h : withReg n v s k = .next t) :
    (∃ i, v = regByte i ∧ k i = .next t) ∨ (8 ≤ v.toNat ∧ t = s.raise (.registerIndexOutOfRange n v)) := by
  by_cases hv : v.toNat < 8
  · refine .inl ⟨⟨v.toNat, hv⟩, exists_regByte v hv, ?_⟩
    rw [exists_regByte v hv, withReg_regByte] at h
    exact h
  · rw [withReg_bad k (by omega)] at h
    exact .inr ⟨by omega, by simpa using h.symm⟩

@[simp] theorem withRegs_regByte (k : RegIndex → RegIndex → Result) (i j : RegIndex) :
    withRegs (regByte i) (regByte j) s k = k i j := by
  simp only [withRegs, withReg_regByte]

/-- Everything the two register operands of format F2RR can do. -/
theorem withRegs_cases {k : RegIndex → RegIndex → Result} (h : withRegs a b s k = .next t) :
    (∃ i j, a = regByte i ∧ b = regByte j ∧ k i j = .next t) ∨
    (8 ≤ a.toNat ∧ t = s.raise (.registerIndexOutOfRange .op1 a)) ∨
    (a.toNat < 8 ∧ 8 ≤ b.toNat ∧ t = s.raise (.registerIndexOutOfRange .op2 b)) := by
  rcases withReg_cases h with ⟨i, hi, h⟩ | h
  · rcases withReg_cases h with ⟨j, hj, h⟩ | h
    · exact .inl ⟨i, j, hi, hj, h⟩
    · exact .inr (.inr ⟨by simp [hi], h⟩)
  · exact .inr (.inl h)

/-! ### Fetch -/

/-- Within the first 254 addresses the fetch reads the three bytes at the pc (R93). -/
theorem fetch_ok (h : s.pc.toNat ≤ 253) :
    fetch s = .ok { ir := s.memRead s.pc, opa := s.memRead (s.pc + 1#8), opb := s.memRead (s.pc + 2#8) } := by
  have h1 : (s.pc + 1#8).toNat = s.pc.toNat + 1 := by rw [BitVec.toNat_add, BitVec.toNat_ofNat]; omega
  have h2 : (s.pc + 2#8).toNat = s.pc.toNat + 2 := by rw [BitVec.toNat_add, BitVec.toNat_ofNat]; omega
  simp [fetch, fetchByte, State.memRead, h1, h2, show s.pc.toNat ≤ 255 by omega, show s.pc.toNat + 1 ≤ 255 by omega,
    show s.pc.toNat + 2 ≤ 255 by omega]

/-- At 254 and 255 the lookahead is out of range (R94). -/
theorem fetch_top (h : 254 ≤ s.pc.toNat) : fetch s = .error (.addressOutOfRange .fetch) := by
  have h0 : s.pc.toNat ≤ 255 := by have := s.pc.isLt; omega
  by_cases h1 : s.pc.toNat + 1 ≤ 255 <;>
    simp [fetch, fetchByte, h0, h1, show ¬ s.pc.toNat + 2 ≤ 255 by omega]

end Sys2Proof.Machine
end

