-- ==== Sys2Proof/Laws/Exec.lean ====
section
/-! SUPPORT. For each meaning, the next state when it completes, and everything it can do when it answers a next state:
complete, or raise one of the faults R157 gives it. -/

namespace Sys2Proof.Machine

variable {s t : State} {a b imm : Byte} (i j : RegIndex)

/-- The address of the instruction `w` bytes on. -/
abbrev State.pcPlus (s : State) (w : Nat) : Byte := BitVec.ofNat 8 (s.pc.toNat + w)

theorem execHlt_completes (h : s.pc.toNat + 1 ≤ 255) : execHlt s = .next (s.stop.setPc (s.pcPlus 1)) := seqNext_fits _ h

theorem execHlt_cases (h : execHlt s = .next t) :
    (s.pc.toNat + 1 ≤ 255 ∧ t = s.stop.setPc (s.pcPlus 1)) ∨
    (255 < s.pc.toNat + 1 ∧ t = s.raise (.addressOutOfRange .pcAdvance)) :=
  (seqNext_cases h).imp_left fun ⟨hw, e⟩ => ⟨hw, by simpa using e.symm⟩

theorem execLdi_completes (h : s.pc.toNat + 3 ≤ 255) :
    execLdi (regByte i) imm s = .next ((s.writeReg i imm).setPc (s.pcPlus 3)) := by
  rw [execLdi, withReg_regByte, seqNext_fits _ h]

theorem execLdi_cases (h : execLdi a imm s = .next t) :
    (∃ i, a = regByte i ∧ s.pc.toNat + 3 ≤ 255 ∧ t = (s.writeReg i imm).setPc (s.pcPlus 3)) ∨
    (a.toNat < 8 ∧ 255 < s.pc.toNat + 3 ∧ t = s.raise (.addressOutOfRange .pcAdvance)) ∨
    (8 ≤ a.toNat ∧ t = s.raise (.registerIndexOutOfRange .op1 a)) := by
  rcases withReg_cases h with ⟨i, hi, h⟩ | h
  · rcases seqNext_cases h with ⟨hw, h⟩ | ⟨hw, h⟩
    · exact .inl ⟨i, hi, hw, by simpa using h.symm⟩
    · exact .inr (.inl ⟨by simp [hi], hw, h⟩)
  · exact .inr (.inr h)

theorem execPrn_completes (h : s.pc.toNat + 2 ≤ 255) :
    execPrn (regByte i) s = .next ((s.emit (s.readReg i)).setPc (s.pcPlus 2)) := by
  rw [execPrn, withReg_regByte, seqNext_fits _ h]

theorem execPrn_cases (h : execPrn a s = .next t) :
    (∃ i, a = regByte i ∧ s.pc.toNat + 2 ≤ 255 ∧ t = (s.emit (s.readReg i)).setPc (s.pcPlus 2)) ∨
    (a.toNat < 8 ∧ 255 < s.pc.toNat + 2 ∧ t = s.raise (.addressOutOfRange .pcAdvance)) ∨
    (8 ≤ a.toNat ∧ t = s.raise (.registerIndexOutOfRange .op1 a)) := by
  rcases withReg_cases h with ⟨i, hi, h⟩ | h
  · rcases seqNext_cases h with ⟨hw, h⟩ | ⟨hw, h⟩
    · exact .inl ⟨i, hi, hw, by simpa using h.symm⟩
    · exact .inr (.inl ⟨by simp [hi], hw, h⟩)
  · exact .inr (.inr h)

theorem execAdd_completes (h : s.pc.toNat + 3 ≤ 255) :
    execAdd (regByte i) (regByte j) s = .next ((s.writeReg i (s.readReg i + s.readReg j)).setPc (s.pcPlus 3)) := by
  rw [execAdd, withRegs_regByte, seqNext_fits _ h]

theorem execMul_completes (h : s.pc.toNat + 3 ≤ 255) :
    execMul (regByte i) (regByte j) s = .next ((s.writeReg i (s.readReg i * s.readReg j)).setPc (s.pcPlus 3)) := by
  rw [execMul, withRegs_regByte, seqNext_fits _ h]

theorem execCmp_completes (h : s.pc.toNat + 3 ≤ 255) :
    execCmp (regByte i) (regByte j) s =
      .next ((s.setFl (compareFlags (s.readReg i) (s.readReg j))).setPc (s.pcPlus 3)) := by
  rw [execCmp, withRegs_regByte, seqNext_fits _ h]

/-- The three F2RR instructions do one of two things: write what they compute and advance by 3, or raise a fault. -/
theorem f2rr_cases {f : RegIndex → RegIndex → State} (h : (withRegs a b s fun i j =>
      seqNext 3 s fun pc' => .next ((f i j).setPc pc')) = .next t) :
    (∃ i j, a = regByte i ∧ b = regByte j ∧ s.pc.toNat + 3 ≤ 255 ∧ t = (f i j).setPc (s.pcPlus 3)) ∨
    (a.toNat < 8 ∧ b.toNat < 8 ∧ 255 < s.pc.toNat + 3 ∧ t = s.raise (.addressOutOfRange .pcAdvance)) ∨
    (8 ≤ a.toNat ∧ t = s.raise (.registerIndexOutOfRange .op1 a)) ∨
    (a.toNat < 8 ∧ 8 ≤ b.toNat ∧ t = s.raise (.registerIndexOutOfRange .op2 b)) := by
  rcases withRegs_cases h with ⟨i, j, hi, hj, h⟩ | h
  · rcases seqNext_cases h with ⟨hw, h⟩ | ⟨hw, h⟩
    · exact .inl ⟨i, j, hi, hj, hw, by simpa using h.symm⟩
    · exact .inr (.inl ⟨by simp [hi], by simp [hj], hw, h⟩)
  · exact .inr (.inr h)

theorem execAdd_cases (h : execAdd a b s = .next t) :
    (∃ i j, a = regByte i ∧ b = regByte j ∧ s.pc.toNat + 3 ≤ 255 ∧
      t = (s.writeReg i (s.readReg i + s.readReg j)).setPc (s.pcPlus 3)) ∨
    (a.toNat < 8 ∧ b.toNat < 8 ∧ 255 < s.pc.toNat + 3 ∧ t = s.raise (.addressOutOfRange .pcAdvance)) ∨
    (8 ≤ a.toNat ∧ t = s.raise (.registerIndexOutOfRange .op1 a)) ∨
    (a.toNat < 8 ∧ 8 ≤ b.toNat ∧ t = s.raise (.registerIndexOutOfRange .op2 b)) := f2rr_cases h

theorem execMul_cases (h : execMul a b s = .next t) :
    (∃ i j, a = regByte i ∧ b = regByte j ∧ s.pc.toNat + 3 ≤ 255 ∧
      t = (s.writeReg i (s.readReg i * s.readReg j)).setPc (s.pcPlus 3)) ∨
    (a.toNat < 8 ∧ b.toNat < 8 ∧ 255 < s.pc.toNat + 3 ∧ t = s.raise (.addressOutOfRange .pcAdvance)) ∨
    (8 ≤ a.toNat ∧ t = s.raise (.registerIndexOutOfRange .op1 a)) ∨
    (a.toNat < 8 ∧ 8 ≤ b.toNat ∧ t = s.raise (.registerIndexOutOfRange .op2 b)) := f2rr_cases h

theorem execCmp_cases (h : execCmp a b s = .next t) :
    (∃ i j, a = regByte i ∧ b = regByte j ∧ s.pc.toNat + 3 ≤ 255 ∧
      t = (s.setFl (compareFlags (s.readReg i) (s.readReg j))).setPc (s.pcPlus 3)) ∨
    (a.toNat < 8 ∧ b.toNat < 8 ∧ 255 < s.pc.toNat + 3 ∧ t = s.raise (.addressOutOfRange .pcAdvance)) ∨
    (8 ≤ a.toNat ∧ t = s.raise (.registerIndexOutOfRange .op1 a)) ∨
    (a.toNat < 8 ∧ 8 ≤ b.toNat ∧ t = s.raise (.registerIndexOutOfRange .op2 b)) := f2rr_cases h

/-- The comparison sets exactly one flag (R31, R114). -/
theorem compareFlags_legal (p q : Byte) : FlagsLegal (compareFlags p q) := by
  unfold compareFlags FlagsLegal
  split
  · simp
  · split <;> simp

/-- The state after the stack-pointer decrement of PUSH and CALL. -/
abbrev State.pushed (s : State) : State := s.setSp (s.sp - 1#8)

theorem execPush_completes (hsp : s.sp ≠ 0x00#8) (h : s.pc.toNat + 2 ≤ 255) :
    execPush (regByte i) s = .next ((s.pushed.memWrite (s.sp - 1#8) (s.pushed.readReg i)).setPc (s.pcPlus 2)) := by
  rw [execPush, withReg_regByte, spDecrement_ok _ hsp, seqNext_fits _ h, State.sp_setSp]

theorem execPush_cases (h : execPush a s = .next t) :
    (∃ i, a = regByte i ∧ s.sp ≠ 0x00#8 ∧ s.pc.toNat + 2 ≤ 255 ∧
      t = (s.pushed.memWrite (s.sp - 1#8) (s.pushed.readReg i)).setPc (s.pcPlus 2)) ∨
    (a.toNat < 8 ∧ s.sp ≠ 0x00#8 ∧ 255 < s.pc.toNat + 2 ∧ t = s.raise (.addressOutOfRange .pcAdvance)) ∨
    (a.toNat < 8 ∧ s.sp = 0x00#8 ∧ t = s.raise (.addressOutOfRange .spUnderflow)) ∨
    (8 ≤ a.toNat ∧ t = s.raise (.registerIndexOutOfRange .op1 a)) := by
  rcases withReg_cases h with ⟨i, hi, h⟩ | h
  · have ha : a.toNat < 8 := by simp [hi]
    rcases spDecrement_cases h with ⟨hsp, h⟩ | h
    · rcases seqNext_cases h with ⟨hw, h⟩ | ⟨hw, h⟩
      · rw [State.sp_setSp] at h
        exact .inl ⟨i, hi, hsp, hw, by simpa using h.symm⟩
      · exact .inr (.inl ⟨ha, hsp, hw, h⟩)
    · exact .inr (.inr (.inl ⟨ha, h⟩))
  · exact .inr (.inr (.inr h))

/-- The state after the load of POP into register `i`, before the stack pointer is incremented. -/
abbrev State.popInto (s : State) (i : RegIndex) : State := s.writeReg i (s.memRead s.sp)

theorem execPop_completes (hsp : (s.popInto i).sp ≠ 0xFF#8) (h : s.pc.toNat + 2 ≤ 255) :
    execPop (regByte i) s = .next (((s.popInto i).setSp ((s.popInto i).sp + 1#8)).setPc (s.pcPlus 2)) := by
  rw [execPop, withReg_regByte, spIncrement_ok _ hsp, seqNext_fits _ h]

theorem execPop_cases (h : execPop a s = .next t) :
    (∃ i, a = regByte i ∧ (s.popInto i).sp ≠ 0xFF#8 ∧ s.pc.toNat + 2 ≤ 255 ∧
      t = ((s.popInto i).setSp ((s.popInto i).sp + 1#8)).setPc (s.pcPlus 2)) ∨
    (∃ i, a = regByte i ∧ (s.popInto i).sp ≠ 0xFF#8 ∧ 255 < s.pc.toNat + 2 ∧
      t = s.raise (.addressOutOfRange .pcAdvance)) ∨
    (∃ i, a = regByte i ∧ (s.popInto i).sp = 0xFF#8 ∧ t = s.raise (.addressOutOfRange .spOverflow)) ∨
    (8 ≤ a.toNat ∧ t = s.raise (.registerIndexOutOfRange .op1 a)) := by
  rcases withReg_cases h with ⟨i, hi, h⟩ | h
  · rcases spIncrement_cases h with ⟨hsp, h⟩ | h
    · rcases seqNext_cases h with ⟨hw, h⟩ | ⟨hw, h⟩
      · exact .inl ⟨i, hi, hsp, hw, by simpa using h.symm⟩
      · exact .inr (.inl ⟨i, hi, hsp, hw, h⟩)
    · exact .inr (.inr (.inl ⟨i, hi, h⟩))
  · exact .inr (.inr (.inr h))

theorem execCall_completes (hsp : s.sp ≠ 0x00#8) (h : s.pc.toNat + 2 ≤ 255) :
    execCall (regByte i) s = .next ((s.pushed.memWrite (s.sp - 1#8) (s.pcPlus 2)).setPc (s.pushed.readReg i)) := by
  rw [execCall, withReg_regByte, spDecrement_ok _ hsp, seqNext_fits _ h, State.sp_setSp]

theorem execCall_cases (h : execCall a s = .next t) :
    (∃ i, a = regByte i ∧ s.sp ≠ 0x00#8 ∧ s.pc.toNat + 2 ≤ 255 ∧
      t = (s.pushed.memWrite (s.sp - 1#8) (s.pcPlus 2)).setPc (s.pushed.readReg i)) ∨
    (a.toNat < 8 ∧ s.sp ≠ 0x00#8 ∧ 255 < s.pc.toNat + 2 ∧ t = s.raise (.addressOutOfRange .pcAdvance)) ∨
    (a.toNat < 8 ∧ s.sp = 0x00#8 ∧ t = s.raise (.addressOutOfRange .spUnderflow)) ∨
    (8 ≤ a.toNat ∧ t = s.raise (.registerIndexOutOfRange .op1 a)) := by
  rcases withReg_cases h with ⟨i, hi, h⟩ | h
  · have ha : a.toNat < 8 := by simp [hi]
    rcases spDecrement_cases h with ⟨hsp, h⟩ | h
    · rcases seqNext_cases h with ⟨hw, h⟩ | ⟨hw, h⟩
      · rw [State.sp_setSp] at h
        exact .inl ⟨i, hi, hsp, hw, by simpa using h.symm⟩
      · exact .inr (.inl ⟨ha, hsp, hw, h⟩)
    · exact .inr (.inr (.inl ⟨ha, h⟩))
  · exact .inr (.inr (.inr h))

theorem execRet_completes (hsp : s.sp ≠ 0xFF#8) :
    execRet s = .next ((s.setSp (s.sp + 1#8)).setPc (s.memRead s.sp)) := spIncrement_ok _ hsp

theorem execRet_cases (h : execRet s = .next t) :
    (s.sp ≠ 0xFF#8 ∧ t = (s.setSp (s.sp + 1#8)).setPc (s.memRead s.sp)) ∨
    (s.sp = 0xFF#8 ∧ t = s.raise (.addressOutOfRange .spOverflow)) :=
  (spIncrement_cases h).imp_left fun ⟨hsp, e⟩ => ⟨hsp, by simpa using e.symm⟩

theorem execJmp_completes : execJmp (regByte i) s = .next (s.setPc (s.readReg i)) := by
  rw [execJmp, withReg_regByte]

theorem execJmp_cases (h : execJmp a s = .next t) :
    (∃ i, a = regByte i ∧ t = s.setPc (s.readReg i)) ∨
    (8 ≤ a.toNat ∧ t = s.raise (.registerIndexOutOfRange .op1 a)) :=
  (withReg_cases h).imp_left fun ⟨i, hi, e⟩ => ⟨i, hi, by simpa using e.symm⟩

theorem execJeq_taken (hE : s.flagE = true) : execJeq (regByte i) s = .next (s.setPc (s.readReg i)) := by
  rw [execJeq, withReg_regByte, if_pos hE]

theorem execJeq_falls (hE : s.flagE = false) (h : s.pc.toNat + 2 ≤ 255) :
    execJeq (regByte i) s = .next (s.setPc (s.pcPlus 2)) := by
  rw [execJeq, withReg_regByte, if_neg (by simp [hE]), seqNext_fits _ h]

theorem execJeq_cases (h : execJeq a s = .next t) :
    (∃ i, a = regByte i ∧ s.flagE = true ∧ t = s.setPc (s.readReg i)) ∨
    (a.toNat < 8 ∧ s.flagE = false ∧ s.pc.toNat + 2 ≤ 255 ∧ t = s.setPc (s.pcPlus 2)) ∨
    (a.toNat < 8 ∧ s.flagE = false ∧ 255 < s.pc.toNat + 2 ∧ t = s.raise (.addressOutOfRange .pcAdvance)) ∨
    (8 ≤ a.toNat ∧ t = s.raise (.registerIndexOutOfRange .op1 a)) := by
  rcases withReg_cases h with ⟨i, hi, h⟩ | h
  · have ha : a.toNat < 8 := by simp [hi]
    cases hE : s.flagE
    · rw [if_neg (by simp [hE])] at h
      rcases seqNext_cases h with ⟨hw, h⟩ | ⟨hw, h⟩
      · exact .inr (.inl ⟨ha, rfl, hw, by simpa using h.symm⟩)
      · exact .inr (.inr (.inl ⟨ha, rfl, hw, h⟩))
    · rw [if_pos hE] at h
      exact .inl ⟨i, hi, rfl, by simpa using h.symm⟩
  · exact .inr (.inr (.inr h))

theorem execJne_taken (hE : s.flagE = false) : execJne (regByte i) s = .next (s.setPc (s.readReg i)) := by
  rw [execJne, withReg_regByte, if_neg (by simp [hE])]

theorem execJne_falls (hE : s.flagE = true) (h : s.pc.toNat + 2 ≤ 255) :
    execJne (regByte i) s = .next (s.setPc (s.pcPlus 2)) := by
  rw [execJne, withReg_regByte, if_pos hE, seqNext_fits _ h]

theorem execJne_cases (h : execJne a s = .next t) :
    (∃ i, a = regByte i ∧ s.flagE = false ∧ t = s.setPc (s.readReg i)) ∨
    (a.toNat < 8 ∧ s.flagE = true ∧ s.pc.toNat + 2 ≤ 255 ∧ t = s.setPc (s.pcPlus 2)) ∨
    (a.toNat < 8 ∧ s.flagE = true ∧ 255 < s.pc.toNat + 2 ∧ t = s.raise (.addressOutOfRange .pcAdvance)) ∨
    (8 ≤ a.toNat ∧ t = s.raise (.registerIndexOutOfRange .op1 a)) := by
  rcases withReg_cases h with ⟨i, hi, h⟩ | h
  · have ha : a.toNat < 8 := by simp [hi]
    cases hE : s.flagE
    · rw [if_neg (by simp [hE])] at h
      exact .inl ⟨i, hi, rfl, by simpa using h.symm⟩
    · rw [if_pos hE] at h
      rcases seqNext_cases h with ⟨hw, h⟩ | ⟨hw, h⟩
      · exact .inr (.inl ⟨ha, rfl, hw, by simpa using h.symm⟩)
      · exact .inr (.inr (.inl ⟨ha, rfl, hw, h⟩))
  · exact .inr (.inr (.inr h))

end Sys2Proof.Machine
end

