-- ==== Sys2Proof/Laws/PerInstr.lean ====
section
/-! SUPPORT. Facts about every instruction as syntax, one lemma for each constructor. -/

namespace Sys2Proof.Laws.EncodedWidth

/-- The encoding is one opcode byte of the opcode map and as many operand bytes as the format has, one to three bytes in
all (R70), and the register-index fields are its first operand bytes, in order (R71). -/
def Statement (i : Instr) : Prop :=
  (encode i).length = i.width ∧ 1 ≤ i.width ∧ i.width ≤ 3 ∧ (encode i).head? = some i.opcode ∧
    i.opcode ∈ opcodeValues ∧ (i.regFields.map Prod.snd).IsPrefix (encode i).tail

theorem hlt : Statement .hlt := ⟨rfl, (width_bounds _).1, (width_bounds _).2, rfl, opcode_mem _, ⟨[], rfl⟩⟩
theorem ldi (a imm : Byte) : Statement (.ldi a imm) := ⟨rfl, (width_bounds _).1, (width_bounds _).2, rfl, opcode_mem _, ⟨[imm], rfl⟩⟩
theorem prn (a : Byte) : Statement (.prn a) := ⟨rfl, (width_bounds _).1, (width_bounds _).2, rfl, opcode_mem _, ⟨[], rfl⟩⟩
theorem add (a b : Byte) : Statement (.add a b) := ⟨rfl, (width_bounds _).1, (width_bounds _).2, rfl, opcode_mem _, ⟨[], rfl⟩⟩
theorem mul (a b : Byte) : Statement (.mul a b) := ⟨rfl, (width_bounds _).1, (width_bounds _).2, rfl, opcode_mem _, ⟨[], rfl⟩⟩
theorem push (a : Byte) : Statement (.push a) := ⟨rfl, (width_bounds _).1, (width_bounds _).2, rfl, opcode_mem _, ⟨[], rfl⟩⟩
theorem pop (a : Byte) : Statement (.pop a) := ⟨rfl, (width_bounds _).1, (width_bounds _).2, rfl, opcode_mem _, ⟨[], rfl⟩⟩
theorem call (a : Byte) : Statement (.call a) := ⟨rfl, (width_bounds _).1, (width_bounds _).2, rfl, opcode_mem _, ⟨[], rfl⟩⟩
theorem ret : Statement .ret := ⟨rfl, (width_bounds _).1, (width_bounds _).2, rfl, opcode_mem _, ⟨[], rfl⟩⟩
theorem cmp (a b : Byte) : Statement (.cmp a b) := ⟨rfl, (width_bounds _).1, (width_bounds _).2, rfl, opcode_mem _, ⟨[], rfl⟩⟩
theorem jmp (a : Byte) : Statement (.jmp a) := ⟨rfl, (width_bounds _).1, (width_bounds _).2, rfl, opcode_mem _, ⟨[], rfl⟩⟩
theorem jeq (a : Byte) : Statement (.jeq a) := ⟨rfl, (width_bounds _).1, (width_bounds _).2, rfl, opcode_mem _, ⟨[], rfl⟩⟩
theorem jne (a : Byte) : Statement (.jne a) := ⟨rfl, (width_bounds _).1, (width_bounds _).2, rfl, opcode_mem _, ⟨[], rfl⟩⟩

end Sys2Proof.Laws.EncodedWidth
end

