-- ==== Sys2Proof/Laws/Step.lean ====
section
/-! SUPPORT. Everything one step can do, for the provers to cite instead of unfolding the loop. -/

namespace Sys2Proof.Machine

variable {s t : State}

theorem step_top (hr : s.status = .running) (h : 254 ≤ s.pc.toNat) :
    step s = .next (s.raise (.addressOutOfRange .fetch)) := by
  simp [step, cycle, hr, fetch_top h]

theorem step_fetched (hr : s.status = .running) (h : s.pc.toNat ≤ 253) :
    step s =
      runFetched { ir := s.memRead s.pc, opa := s.memRead (s.pc + 1#8), opb := s.memRead (s.pc + 2#8) } s := by
  simp [step, cycle, hr, fetch_ok h]

theorem step_exec (hr : s.status = .running) (h : s.pc.toNat ≤ 253) {i : Instr} (hi : DecodesAt s i) :
    step s = exec i s := by
  rw [step_fetched hr h, runFetched, show decodeFetched _ _ _ = _ from hi]

theorem step_illegal (hr : s.status = .running) (h : s.pc.toNat ≤ 253) (hi : s.memRead s.pc ∉ opcodeValues) :
    step s = .next (s.raise (.unsupportedOperation (s.memRead s.pc))) := by
  have hd : ∀ p q, decodeFetched (s.memRead s.pc) p q = .error (.unsupportedOperation (s.memRead s.pc)) := by
    intro p q
    simp only [opcodeValues, List.mem_cons, List.not_mem_nil, or_false, not_or] at hi
    simp [decodeFetched, hi]
  rw [step_fetched hr h, runFetched, hd]

theorem step_halted (h : s.status = .halted) : step s = .fault .halted := by
  simp [step, cycle, h]

theorem step_faulted {r : FaultRecord} (h : s.status = .faulted r) : step s = .fault (.faulted r) := by
  simp [step, cycle, h]

/-- A step that answers a next state starts in status Running and either runs the instruction at the pc or raises one of
the two faults that come before any instruction. -/
theorem step_cases (h : step s = .next t) :
    s.status = .running ∧
    ((254 ≤ s.pc.toNat ∧ t = s.raise (.addressOutOfRange .fetch)) ∨
     (s.pc.toNat ≤ 253 ∧ s.memRead s.pc ∉ opcodeValues ∧ t = s.raise (.unsupportedOperation (s.memRead s.pc))) ∨
     (s.pc.toNat ≤ 253 ∧ ∃ i, DecodesAt s i ∧ exec i s = .next t)) := by
  cases hs : s.status with
  | halted => rw [step_halted hs] at h; cases h
  | faulted r => rw [step_faulted hs] at h; cases h
  | running =>
    refine ⟨rfl, ?_⟩
    by_cases hpc : s.pc.toNat ≤ 253
    · by_cases hi : s.memRead s.pc ∈ opcodeValues
      · obtain ⟨i, hd⟩ := decodeFetched_of_mem _ (s.memRead (s.pc + 1#8)) (s.memRead (s.pc + 2#8)) hi
        exact .inr (.inr ⟨hpc, i, hd, step_exec hs hpc hd ▸ h⟩)
      · rw [step_illegal hs hpc hi] at h
        exact .inr (.inl ⟨hpc, hi, by simpa using h.symm⟩)
    · rw [step_top hs (by omega)] at h
      exact .inl ⟨by omega, by simpa using h.symm⟩

end Sys2Proof.Machine
end

