-- ==== Sys2Proof/Tests/Slice0.lean ====
section
/-! SUPPORT. The model's own tests: ill-formed terms, words written out from the encodings, one-step vectors of
spec/95_test_vectors.md (named there V-…), and for each statement with hypotheses a concrete input that meets them. -/

open Sys2Proof Sys2Proof.Machine

namespace Sys2Proof.Tests

/-! ### Well-formedness: each register-index field is checked, and an immediate is not -/

theorem test_illFormed_ldi : Instr.wellFormed (.ldi 0x08#8 0x00#8) = false := by decide
theorem test_illFormed_prn : Instr.wellFormed (.prn 0x08#8) = false := by decide
theorem test_illFormed_add_a : Instr.wellFormed (.add 0x08#8 0x07#8) = false := by decide
theorem test_illFormed_add_b : Instr.wellFormed (.add 0x07#8 0x08#8) = false := by decide
theorem test_illFormed_mul_a : Instr.wellFormed (.mul 0x80#8 0x00#8) = false := by decide
theorem test_illFormed_mul_b : Instr.wellFormed (.mul 0x00#8 0x80#8) = false := by decide
theorem test_illFormed_push : Instr.wellFormed (.push 0x08#8) = false := by decide
theorem test_illFormed_pop : Instr.wellFormed (.pop 0x09#8) = false := by decide
theorem test_illFormed_call : Instr.wellFormed (.call 0x10#8) = false := by decide
theorem test_illFormed_cmp_a : Instr.wellFormed (.cmp 0xFF#8 0x00#8) = false := by decide
theorem test_illFormed_cmp_b : Instr.wellFormed (.cmp 0x00#8 0xFF#8) = false := by decide
theorem test_illFormed_jmp : Instr.wellFormed (.jmp 0x0C#8) = false := by decide
theorem test_illFormed_jeq : Instr.wellFormed (.jeq 0x08#8) = false := by decide
theorem test_illFormed_jne : Instr.wellFormed (.jne 0x08#8) = false := by decide
theorem test_wellFormed_immediate : WellFormed (.ldi 0x07#8 0xFF#8) := by decide

/-! ### Decoding: one word for each constructor, its bits written from the opcode map R76 and the formats R71 -/

theorem test_decode_hlt : decode [0b00000001#8] = .ok (.hlt, []) := rfl
theorem test_decode_ldi : decode [0b10000010#8, 0b00000011#8, 0b11111111#8] = .ok (.ldi 3#8 255#8, []) := rfl
theorem test_decode_prn : decode [0b01000111#8, 0b00000111#8] = .ok (.prn 7#8, []) := rfl
theorem test_decode_add : decode [0b10100000#8, 0b00000101#8, 0b00000110#8] = .ok (.add 5#8 6#8, []) := rfl
theorem test_decode_mul : decode [0b10100010#8, 0b00000000#8, 0b00000001#8] = .ok (.mul 0#8 1#8, []) := rfl
theorem test_decode_push : decode [0b01000101#8, 0b00000100#8] = .ok (.push 4#8, []) := rfl
theorem test_decode_pop : decode [0b01000110#8, 0b00000010#8] = .ok (.pop 2#8, []) := rfl
theorem test_decode_call : decode [0b01010000#8, 0b00000001#8] = .ok (.call 1#8, []) := rfl
theorem test_decode_ret : decode [0b00010001#8] = .ok (.ret, []) := rfl
theorem test_decode_cmp : decode [0b10100111#8, 0b00000001#8, 0b00000000#8] = .ok (.cmp 1#8 0#8, []) := rfl
theorem test_decode_jmp : decode [0b01010100#8, 0b00000011#8] = .ok (.jmp 3#8, []) := rfl
theorem test_decode_jeq : decode [0b01010101#8, 0b00000011#8] = .ok (.jeq 3#8, []) := rfl
theorem test_decode_jne : decode [0b01010110#8, 0b00000011#8] = .ok (.jne 3#8, []) := rfl

/-- An index byte is passed on whole: its upper five bits are significant (R74). -/
theorem test_decode_keeps_the_index_byte : decode [0b01000111#8, 0b10001001#8] = .ok (.prn 0x89#8, []) := rfl
theorem test_decode_truncated : decode [0x82#8, 0x00#8] = .error .truncated := rfl

/-- The three operand bytes of a word as spec/opcode_table.json numbers its bits: `ADD R1,R2` is A0 01 02. -/
theorem test_tableWord_add : decodeTableWord 24 0x0201A0 = some (.add 1#8 2#8) := by decide
theorem test_tableWord_bits_above_are_zero : decodeTableWord 8 0x0201A0 = some (.add 0#8 0#8) := by decide
theorem test_tableWord_refused : decodeTableWord 24 0x000083 = none := by decide

/-! ### One step of the loop -/

/-- The state after a step that answers one. -/
def nextOf (r : Result) : Option State :=
  match r with
  | .next t => some t
  | .fault _ => none
  | .refused _ => none

/-- A pre-state of section 2 of 95_test_vectors.md: the pc, the bytes in memory from there on, all else at reset. -/
def st (pc : Byte) (bytes : List Byte) : State :=
  { State.reset with pc := pc, mem := State.reset.mem.place pc.toNat bytes }

/-- A pre-state with one register set. -/
def st1 (pc : Byte) (bytes : List Byte) (i : RegIndex) (v : Byte) : State :=
  { st pc bytes with x := State.reset.x.set i.val v }

/-- A pre-state with R0 and R1 set. -/
def st2 (pc : Byte) (bytes : List Byte) (v w : Byte) : State :=
  { st pc bytes with x := (State.reset.x.set 0 v).set 1 w }

/-- What a step leaves of the registers, the pc, the flags and the fault's detail. -/
def outcome (s : State) : Option (List Byte × Byte × FlagBits × Option FaultDetail) :=
  (nextOf (step s)).map fun t => (t.x.toList, t.pc, t.fl, t.fault.map FaultRecord.detail)

/-- V-FETCH-2: even HLT cannot execute at 254; the record's pc is 254 and nothing else changes. -/
theorem test_fetch_2 : nextOf (step (st 0xFE#8 [0x01#8])) =
    some { st 0xFE#8 [0x01#8] with fault := some { pc := 0xFE#8, detail := .addressOutOfRange .fetch } } := by decide

/-- V-FETCH-5: a two-byte instruction at 253 is legal. -/
theorem test_fetch_5 : outcome (st1 0xFD#8 [0x47#8, 0x00#8] 0 0x09#8) =
    some ([0x09#8, 0#8, 0#8, 0#8, 0#8, 0#8, 0#8, 0xF4#8], 0xFF#8, 0b000#3, none) := by decide

/-- V-DISP-1: 0x00 is illegal, no no-op. -/
theorem test_disp_1 : (nextOf (step State.reset)).map State.fault =
    some (some { pc := 0x00#8, detail := .unsupportedOperation 0x00#8 }) := by decide

/-- V-DISP-10: operand 1 is reported before operand 2. -/
theorem test_disp_10 : (nextOf (step (st 0x00#8 [0xA0#8, 0x09#8, 0x0A#8]))).map State.fault =
    some (some { pc := 0x00#8, detail := .registerIndexOutOfRange .op1 0x09#8 }) := by decide

/-- The cause codes of R151. -/
theorem test_cause_codes : FaultCause.code (FaultDetail.cause (.registerIndexOutOfRange .op2 0x08#8)) = 3 ∧
    FaultCause.code (FaultDetail.cause (.addressOutOfRange .fetch)) = 2 ∧
    FaultCause.code (FaultDetail.cause (.unsupportedOperation 0x00#8)) = 1 := by decide

/-! ### Two vectors for each instruction -/

/-- V-LDI-2. -/
theorem test_ldi_2 : nextOf (step (st 0x10#8 [0x82#8, 0x03#8, 0xFF#8])) =
    some { st1 0x10#8 [0x82#8, 0x03#8, 0xFF#8] 3 0xFF#8 with pc := 0x13#8 } := by decide
/-- V-LDI-6: the register is not written. -/
theorem test_ldi_6 : nextOf (step (st 0xFD#8 [0x82#8, 0x00#8, 0x05#8])) =
    some { st 0xFD#8 [0x82#8, 0x00#8, 0x05#8] with
      fault := some { pc := 0xFD#8, detail := .addressOutOfRange .pcAdvance } } := by decide

/-- V-ADD-1: 300 wraps to 0x2C. -/
theorem test_add_1 : outcome (st2 0x06#8 [0xA0#8, 0x00#8, 0x01#8] 0xC8#8 0x64#8) =
    some ([0x2C#8, 0x64#8, 0#8, 0#8, 0#8, 0#8, 0#8, 0xF4#8], 0x09#8, 0b000#3, none) := by decide
/-- V-ADD-7: ADD into the stack pointer wraps and raises nothing. -/
theorem test_add_7 : outcome (st1 0x00#8 [0xA0#8, 0x07#8, 0x00#8] 0 0x10#8) =
    some ([0x10#8, 0#8, 0#8, 0#8, 0#8, 0#8, 0#8, 0x04#8], 0x03#8, 0b000#3, none) := by decide

/-- V-MUL-9: the product lands in operand 1. -/
theorem test_mul_9 : outcome (st2 0x00#8 [0xA2#8, 0x01#8, 0x00#8] 0x08#8 0x09#8) =
    some ([0x08#8, 0x48#8, 0#8, 0#8, 0#8, 0#8, 0#8, 0xF4#8], 0x03#8, 0b000#3, none) := by decide
/-- V-MUL-12: the low byte of 59536. -/
theorem test_mul_12 : outcome (st 0x00#8 [0xA2#8, 0x07#8, 0x07#8]) =
    some ([0#8, 0#8, 0#8, 0#8, 0#8, 0#8, 0#8, 0x90#8], 0x03#8, 0b000#3, none) := by decide

/-- V-CMP-3: the old L is cleared. -/
theorem test_cmp_3 : outcome { st2 0x00#8 [0xA7#8, 0x00#8, 0x01#8] 0x07#8 0x07#8 with fl := 0b100#3 } =
    some ([0x07#8, 0x07#8, 0#8, 0#8, 0#8, 0#8, 0#8, 0xF4#8], 0x03#8, 0b001#3, none) := by decide
/-- V-CMP-7: the comparison is unsigned. -/
theorem test_cmp_7 : outcome (st2 0x00#8 [0xA7#8, 0x00#8, 0x01#8] 0x80#8 0x7F#8) =
    some ([0x80#8, 0x7F#8, 0#8, 0#8, 0#8, 0#8, 0#8, 0xF4#8], 0x03#8, 0b010#3, none) := by decide

/-- V-PUSH-2: `PUSH R7` stores the decremented pointer. -/
theorem test_push_2 : nextOf (step (st 0x00#8 [0x45#8, 0x07#8])) =
    some { st1 0x00#8 [0x45#8, 0x07#8] 7 0xF3#8 with
      pc := 0x02#8, mem := [(0, 0x45#8), (1, 0x07#8), (0xF3, 0xF3#8)] } := by decide
/-- V-PUSH-4: no wrap, and memory is not written. -/
theorem test_push_4 : nextOf (step (st1 0x10#8 [0x45#8, 0x00#8] 7 0x00#8)) =
    some { st1 0x10#8 [0x45#8, 0x00#8] 7 0x00#8 with
      fault := some { pc := 0x10#8, detail := .addressOutOfRange .spUnderflow } } := by decide

/-- V-POP-4: the highest legal pop. -/
theorem test_pop_4 : outcome { st1 0x00#8 [0x46#8, 0x00#8] 7 0xFE#8 with
      mem := [(0, 0x46#8), (0xFE, 0x77#8)] } =
    some ([0x77#8, 0#8, 0#8, 0#8, 0#8, 0#8, 0#8, 0xFF#8], 0x02#8, 0b000#3, none) := by decide
/-- V-POP-2: `POP R7` ends with the popped byte plus 1. -/
theorem test_pop_2 : outcome { st 0x00#8 [] with mem := [(0, 0x46#8), (1, 0x07#8), (0xF4, 0x20#8)] } =
    some ([0#8, 0#8, 0#8, 0#8, 0#8, 0#8, 0#8, 0x21#8], 0x02#8, 0b000#3, none) := by decide

/-- V-CALL-2: `CALL R7` jumps to the decremented pointer, having pushed `A + 2`. -/
theorem test_call_2 : nextOf (step (st 0x00#8 [0x50#8, 0x07#8])) =
    some { st1 0x00#8 [0x50#8, 0x07#8] 7 0xF3#8 with
      pc := 0xF3#8, mem := [(0, 0x50#8), (1, 0x07#8), (0xF3, 0x02#8)] } := by decide
/-- V-CALL-4: the return address 0xFF is a byte. -/
theorem test_call_4 : (nextOf (step (st1 0xFD#8 [0x50#8] 0 0x30#8))).map
      (fun t => (t.pc, t.readReg 7, t.memRead 0xF3#8)) = some (0x30#8, 0xF3#8, 0xFF#8) := by decide

/-- V-RET-4. -/
theorem test_ret_4 : outcome { st1 0x00#8 [] 7 0xFE#8 with mem := [(0, 0x11#8), (0xFE, 0xFE#8)] } =
    some ([0#8, 0#8, 0#8, 0#8, 0#8, 0#8, 0#8, 0xFF#8], 0xFE#8, 0b000#3, none) := by decide
/-- V-RET-2: the increment would pass 255. -/
theorem test_ret_2 : outcome { st1 0x00#8 [] 7 0xFF#8 with mem := [(0, 0x11#8), (0xFF, 0x10#8)] } =
    some ([0#8, 0#8, 0#8, 0#8, 0#8, 0#8, 0#8, 0xFF#8], 0x00#8, 0b000#3, some (.addressOutOfRange .spOverflow)) := by decide

/-- V-JMP-3. -/
theorem test_jmp_3 : nextOf (step (st 0x00#8 [0x54#8, 0x07#8])) =
    some { st 0x00#8 [0x54#8, 0x07#8] with pc := 0xF4#8 } := by decide
/-- V-JMP-4. -/
theorem test_jmp_4 : (nextOf (step (st 0x00#8 [0x54#8, 0x0C#8]))).map State.fault =
    some (some { pc := 0x00#8, detail := .registerIndexOutOfRange .op1 0x0C#8 }) := by decide

/-- V-JEQ-1 and V-JEQ-7: bit 0 decides, whatever the other bits. -/
theorem test_jeq_1 : outcome { st1 0x12#8 [0x55#8, 0x03#8] 3 0x16#8 with fl := 0b011#3 } =
    some ([0#8, 0#8, 0#8, 0x16#8, 0#8, 0#8, 0#8, 0xF4#8], 0x16#8, 0b011#3, none) := by decide
/-- V-JEQ-3. -/
theorem test_jeq_3 : outcome { st1 0x12#8 [0x55#8, 0x03#8] 3 0x16#8 with fl := 0b010#3 } =
    some ([0#8, 0#8, 0#8, 0x16#8, 0#8, 0#8, 0#8, 0xF4#8], 0x14#8, 0b010#3, none) := by decide

/-- V-JNE-2. -/
theorem test_jne_2 : outcome { st1 0x14#8 [0x56#8, 0x03#8] 3 0x0C#8 with fl := 0b001#3 } =
    some ([0#8, 0#8, 0#8, 0x0C#8, 0#8, 0#8, 0#8, 0xF4#8], 0x16#8, 0b001#3, none) := by decide
/-- V-JNE-3: taken before any CMP. -/
theorem test_jne_3 : outcome (st1 0x14#8 [0x56#8, 0x03#8] 3 0x0C#8) =
    some ([0#8, 0#8, 0#8, 0x0C#8, 0#8, 0#8, 0#8, 0xF4#8], 0x0C#8, 0b000#3, none) := by decide

/-- V-HLT-2. -/
theorem test_hlt_2 : nextOf (step { st1 0x00#8 [0x01#8] 0 0x01#8 with fl := 0b100#3 }) =
    some { st1 0x00#8 [0x01#8] 0 0x01#8 with fl := 0b100#3, pc := 0x01#8, running := false } := by decide
/-- V-FETCH-1: the last address at which HLT can execute. -/
theorem test_hlt_at_253 : nextOf (step (st 0xFD#8 [0x01#8])) =
    some { st 0xFD#8 [0x01#8] with pc := 0xFE#8, running := false } := by decide

/-- V-PRN-1, with the rendering of R143; the codes of the digits are the model's own (log entry 22). -/
theorem test_prn_1 : (nextOf (step (st1 0x09#8 [0x47#8, 0x00#8] 0 0x48#8))).map
      (fun t => (t.out, t.outText, t.pc)) = some ([72#8], [0x37#8, 0x32#8, 0x0A#8], 0x0B#8) := by decide
/-- V-PRN-3 and V-PRN-4: 255 and 0 as text, in the codes of log entry 22. -/
theorem test_prn_text : renderByte 0xFF#8 = [0x32#8, 0x35#8, 0x35#8, 0x0A#8] ∧ renderByte 0x00#8 = [0x30#8, 0x0A#8] := by
  decide

/-! ### The interface -/

/-- An instruction placed by `withFetchWord` is what the next step runs: `LDI R2,9` right after reset. -/
theorem test_withFetchWord : (nextOf (step (State.reset.withFetchWord 24 0x090282))).map
      (fun t => (t.readReg 2, t.pc)) = some (0x09#8, 0x03#8) := by decide

/-- At 255 only the byte that has a cell is stored, and the memory stays canonical (log entry 21). -/
theorem test_withFetchWord_top : (State.withFetchWord { State.reset with pc := 0xFF#8 } 24 0x090282).mem =
    [(255, 0x82#8)] := by decide

/-- Writing the reset value removes the entry. -/
theorem test_memory_canonical : ((State.reset.memWrite 0x05#8 0x11#8).memWrite 0x05#8 0x00#8).mem = [] ∧
    ((State.reset.memWrite 0x05#8 0x11#8).memWrite 0x03#8 0x22#8).mem = [(3, 0x22#8), (5, 0x11#8)] := by decide

/-! ### Witnesses: for each statement with hypotheses, an input that meets them all, at the ends of their ranges -/

theorem witness_LoadPlacesTheImage : ([] : List Byte).length ≤ 256 ∧ (List.replicate 256 0x01#8).length ≤ 256 ∧
    (0xFF#8 : Byte).toNat < (List.replicate 256 0x01#8).length ∧ ([] : List Byte).length ≤ (0x00#8 : Byte).toNat := by
  simp only [List.length_replicate, List.length_nil]
  decide

theorem witness_LoadRefusesLongImages : 256 < (List.replicate 257 0x01#8).length := by
  simp only [List.length_replicate]
  decide

theorem witness_ReadReturnsTheByteLastWritten : ∃ s, load [0x82#8, 0x00#8, 0x08#8] = .ok s := ⟨_, rfl⟩

/-- Two memories built by writes in different orders. -/
theorem witness_MemoriesThatReadAlikeAreEqual :
    Memory.wf (Memory.write (Memory.write [] 255 0x01#8) 0 0x02#8) = true ∧
      Memory.wf (Memory.write (Memory.write [] 0 0x02#8) 255 0x01#8) = true ∧
      ∀ a : Byte, Memory.read (Memory.write (Memory.write [] 255 0x01#8) 0 0x02#8) a.toNat =
        Memory.read (Memory.write (Memory.write [] 0 0x02#8) 255 0x01#8) a.toNat :=
  ⟨by decide, by decide, fun _ => rfl⟩

/-- A completed CMP, PUSH and POP, a register byte that is no operand of a stack instruction, and another memory that
agrees at the stack pointer. -/
theorem witness_OnlyStackInstructionsAccessMemory :
    (∃ t, exec (.cmp 0x00#8 0x01#8) State.reset = .next t) ∧ (∃ t, exec (.push 0x00#8) State.reset = .next t) ∧
      (∃ t, exec (.pop 0x02#8) State.reset = .next t) ∧
      (∀ a, Instr.cmp 0x00#8 0x01#8 ≠ .push a) ∧ (∀ a, Instr.cmp 0x00#8 0x01#8 ≠ .call a) ∧
      (∀ a, Instr.push 0x00#8 ≠ .pop a) ∧ Instr.push 0x00#8 ≠ .ret ∧
      Memory.read [(0x10, 0x55#8)] (State.reset.readReg 7).toNat = State.reset.memRead (State.reset.readReg 7) :=
  ⟨⟨_, rfl⟩, ⟨_, rfl⟩, ⟨_, rfl⟩, by simp, by simp, by simp, by simp, by decide⟩

theorem witness_EncodeInvertsDecode : decode [0x82#8, 0x00#8, 0x08#8, 0x82#8] = .ok (.ldi 0x00#8 0x08#8, [0x82#8]) := rfl

/-- No instruction is at a byte 0xFF. -/
theorem witness_Dispatch_illegal : (st 0xFD#8 [0xFF#8]).status = .running ∧ (st 0xFD#8 [0xFF#8]).pc.toNat ≤ 253 ∧
    ∀ i, ¬ DecodesAt (st 0xFD#8 [0xFF#8]) i :=
  ⟨by decide, by decide, fun _ h => nomatch h⟩

theorem witness_Dispatch_match : (st 0xFD#8 [0x01#8]).status = .running ∧ (st 0xFD#8 [0x01#8]).pc.toNat ≤ 253 ∧
    DecodesAt (st 0xFD#8 [0x01#8]) .hlt :=
  ⟨by decide, by decide, rfl⟩

theorem witness_StepRunsTheDecodedInstruction :
    (st 0xFD#8 [0x47#8, 0x07#8, 0x01#8]).status = .running ∧ (st 0xFD#8 [0x47#8, 0x07#8, 0x01#8]).pc.toNat ≤ 253 ∧
      decode [0x47#8, 0x07#8, 0x01#8] = .ok (.prn 0x07#8, [0x01#8]) ∧
      (st 0xFD#8 [0x47#8, 0x07#8, 0x01#8]).memRead 0xFF#8 = 0x01#8 :=
  ⟨by decide, by decide, rfl, by decide⟩

theorem witness_LookaheadFaultsAtTheTopOfMemory :
    ((st 0xFE#8 [0x01#8]).status = .running ∧ 254 ≤ (st 0xFE#8 [0x01#8]).pc.toNat) ∧
      ((st 0xFF#8 [0x01#8]).status = .running ∧ 254 ≤ (st 0xFF#8 [0x01#8]).pc.toNat) := by decide

/-- The three conditions a machine can be in. -/
theorem witness_StepIsEnabledExactlyWhenRunning :
    (State.reset.running = true ∧ State.reset.fault = none) ∧
      (State.reset.stop.running = false ∧ State.reset.stop.fault = none) ∧
      (State.reset.raise (.addressOutOfRange .fetch)).fault =
        some { pc := 0x00#8, detail := .addressOutOfRange .fetch } := by decide

theorem witness_Faults_fetch : (st 0xFE#8 []).status = .running ∧ 254 ≤ (st 0xFE#8 []).pc.toNat := by decide

theorem witness_Faults_opcode : (st 0xFD#8 [0x57#8]).status = .running ∧ (st 0xFD#8 [0x57#8]).pc.toNat ≤ 253 ∧
    (st 0xFD#8 [0x57#8]).memRead 0xFD#8 ∉ opcodeValues := by decide

theorem witness_Faults_operand1 : (0x55#8 : Byte) ∈ opcodeValues ∧ (0x55#8 : Byte) ≠ 0x01#8 ∧ (0x55#8 : Byte) ≠ 0x11#8 ∧
    8 ≤ (0x08#8 : Byte).toNat ∧ (st 0xFD#8 [0x55#8, 0x08#8]).memRead 0xFD#8 = 0x55#8 ∧
    (st 0xFD#8 [0x55#8, 0x08#8]).memRead 0xFE#8 = 0x08#8 ∧ (st 0xFD#8 [0x55#8, 0x08#8]).status = .running := by decide

/-- At 253, with the second index out of range: the pc condition holds too and is not the one reported. -/
theorem witness_Faults_operand2 : (0xA7#8 : Byte) ∈ [0xA0#8, 0xA2#8, 0xA7#8] ∧ (0x07#8 : Byte).toNat < 8 ∧
    8 ≤ (0x08#8 : Byte).toNat ∧ (st 0xFD#8 [0xA7#8, 0x07#8, 0x08#8]).memRead 0xFE#8 = 0x07#8 ∧
    (st 0xFD#8 [0xA7#8, 0x07#8, 0x08#8]).memRead 0xFF#8 = 0x08#8 ∧
    (st 0xFD#8 [0xA7#8, 0x07#8, 0x08#8]).status = .running := by decide

theorem witness_Faults_underflow : (0x50#8 : Byte) ∈ [0x45#8, 0x50#8] ∧ (0x07#8 : Byte).toNat < 8 ∧
    (st1 0x00#8 [0x50#8, 0x07#8] 7 0x00#8).readReg 7 = 0x00#8 ∧
    (st1 0x00#8 [0x50#8, 0x07#8] 7 0x00#8).memRead 0x00#8 = 0x50#8 ∧
    (st1 0x00#8 [0x50#8, 0x07#8] 7 0x00#8).status = .running := by decide

/-- RET and `POP R6` at stack pointer 255, and `POP R7` of the byte 255. -/
theorem witness_Faults_overflow :
    ((st1 0x00#8 [0x11#8] 7 0xFF#8).memRead 0x00#8 = 0x11#8 ∧ (st1 0x00#8 [0x11#8] 7 0xFF#8).readReg 7 = 0xFF#8) ∧
      ((st1 0x00#8 [0x46#8, 0x06#8] 7 0xFF#8).memRead 0x00#8 = 0x46#8 ∧ (0x06#8 : Byte).toNat < 7 ∧
        (st1 0x00#8 [0x46#8, 0x06#8] 7 0xFF#8).readReg 7 = 0xFF#8) ∧
      ((st1 0x00#8 [0x46#8, 0x07#8, 0xFF#8] 7 0x02#8).memRead 0x01#8 = 0x07#8 ∧
        (st1 0x00#8 [0x46#8, 0x07#8, 0xFF#8] 7 0x02#8).memRead 0x02#8 = 0xFF#8) := by decide

theorem witness_Faults_pcAdvance : (st 0xFD#8 [0x82#8, 0x07#8]).status = .running ∧
    (st 0xFD#8 [0x82#8, 0x07#8]).pc.toNat = 253 ∧ (st 0xFD#8 [0x82#8, 0x07#8]).memRead 0xFD#8 = 0x82#8 ∧
    (0x07#8 : Byte).toNat < 8 := by decide

/-- Every premise of the no-fault clause, for a `POP R7` at stack pointer 255 whose popped byte is 0. -/
theorem witness_Faults_none_pop7 : ∀ s, s = st1 0x00#8 [0x46#8, 0x07#8] 7 0xFF#8 →
    s.status = .running ∧ s.memRead s.pc = 0x46#8 ∧ s.memRead (s.pc + 1#8) = 0x07#8 ∧ s.pc.toNat ≤ 253 ∧
      (0x46#8 : Byte) ∈ opcodeValues ∧ (0x07#8 : Byte).toNat < 8 ∧ (0x46#8 : Byte) ∉ [0xA0#8, 0xA2#8, 0xA7#8] ∧
      (0x46#8 : Byte) ∉ [0x45#8, 0x50#8] ∧ (0x46#8 : Byte) ≠ 0x11#8 ∧ s.memRead (s.readReg 7) ≠ 0xFF#8 ∧
      (0x46#8 : Byte) ∉ [0x82#8, 0xA0#8, 0xA2#8, 0xA7#8] := by
  rintro _ rfl
  decide

/-- Every premise of the no-fault clause, for an ADD at 252, the last address of a three-byte instruction. -/
theorem witness_Faults_none_add : ∀ s, s = st 0xFC#8 [0xA0#8, 0x07#8, 0x07#8] →
    s.status = .running ∧ s.memRead s.pc = 0xA0#8 ∧ s.memRead (s.pc + 1#8) = 0x07#8 ∧ s.memRead (s.pc + 2#8) = 0x07#8 ∧
      s.pc.toNat ≤ 252 ∧ (0xA0#8 : Byte) ∈ opcodeValues ∧ (0x07#8 : Byte).toNat < 8 ∧
      (0xA0#8 : Byte) ∉ [0x45#8, 0x50#8] ∧ (0xA0#8 : Byte) ≠ 0x11#8 ∧ (0xA0#8 : Byte) ≠ 0x46#8 := by
  rintro _ rfl
  decide

theorem witness_FaultingStepChangesOnlyTheLatch : ∃ t, step State.reset = .next t ∧ t.fault ≠ none :=
  ⟨_, rfl, by decide⟩

theorem witness_EachInstructionRaisesOnlyItsFaults :
    ∃ t, exec (.jne 0x08#8) State.reset = .next t ∧ State.reset.pc.toNat ≤ 253 ∧ State.reset.fault = none ∧
      t.fault = some { pc := 0x00#8, detail := .registerIndexOutOfRange .op1 0x08#8 } :=
  ⟨_, rfl, by decide, by decide, by decide⟩

theorem witness_BadRegisterIndexRaises :
    (8 ≤ (0x08#8 : Byte).toNat ∧ Instr.jne 0x08#8 ∈ [.prn 0x08#8, .push 0x08#8, .pop 0x08#8, .call 0x08#8, .jmp 0x08#8,
        .jeq 0x08#8, .jne 0x08#8]) ∧
      (8 ≤ (0xFF#8 : Byte).toNat ∧ Instr.ldi 0xFF#8 0x09#8 ∈
        [.ldi 0xFF#8 0x09#8, .add 0xFF#8 0x09#8, .mul 0xFF#8 0x09#8, .cmp 0xFF#8 0x09#8]) ∧
      ((0x07#8 : Byte).toNat < 8 ∧ 8 ≤ (0x08#8 : Byte).toNat ∧ Instr.cmp 0x07#8 0x08#8 ∈
        [.add 0x07#8 0x08#8, .mul 0x07#8 0x08#8, .cmp 0x07#8 0x08#8]) := by decide

theorem witness_ThreeByteInstructionAt253Raises : (st 0xFD#8 []).pc.toNat = 253 ∧
    Instr.ldi (regByte 0) 0x05#8 ∈ [.ldi (regByte 0) 0x05#8, .add (regByte 0) (regByte 7), .mul (regByte 0) (regByte 7),
      .cmp (regByte 0) (regByte 7)] := by decide

theorem witness_StackPointerStepsRaiseAtTheEnds :
    ((st1 0x00#8 [] 7 0x00#8).readReg 7 = 0x00#8 ∧ Instr.call (regByte 7) ∈ [.push (regByte 7), .call (regByte 7)]) ∧
      ((6 : RegIndex) ≠ 7 ∧ (st1 0x00#8 [] 7 0xFF#8).readReg 7 = 0xFF#8) ∧
      (st1 0x00#8 [0xFF#8] 7 0x00#8).memRead ((st1 0x00#8 [0xFF#8] 7 0x00#8).readReg 7) = 0xFF#8 := by decide

/-- A JEQ and an ADD that complete, a CMP at 252, and flags that agree with the old ones in bit E alone. -/
theorem witness_FlagsAreSetByCmpAndReadByJumps :
    (∃ t, exec (.jeq 0x00#8) (st 0xFD#8 []) = .next t) ∧ (∃ t, exec (.jne 0x00#8) (st 0xFD#8 []) = .next t) ∧
      (∃ t, exec (.add 0x00#8 0x01#8) State.reset = .next t) ∧ (st 0xFC#8 []).pc.toNat ≤ 252 ∧
      (∀ a b, Instr.jeq 0x00#8 ≠ .cmp a b) ∧ (∀ a, Instr.add 0x00#8 0x01#8 ≠ .jeq a) ∧
      (∀ a, Instr.add 0x00#8 0x01#8 ≠ .jne a) ∧ (∀ a b, Instr.add 0x00#8 0x01#8 ≠ .cmp a b) ∧
      (0b110#3 : FlagBits).getLsbD 0 = State.reset.fl.getLsbD 0 :=
  ⟨⟨_, rfl⟩, ⟨_, rfl⟩, ⟨_, rfl⟩, by decide, by simp, by simp, by simp, by simp, by decide⟩

theorem witness_OutputIsAppendedByPrnAndNeverRead :
    (∃ t, exec (.prn (regByte 7)) (st 0xFD#8 []) = .next t ∧ t.out = [0xF4#8]) ∧
      (∃ t, exec .hlt State.reset = .next t) ∧ (∀ a, Instr.hlt ≠ .prn a) ∧
      ∃ t, step (st 0x00#8 [0x47#8, 0x07#8]) = .next t ∧ t.out = [0xF4#8] :=
  ⟨⟨_, rfl, by decide⟩, ⟨_, rfl⟩, by simp, ⟨_, rfl, by decide⟩⟩

theorem witness_RunningIsClearedOnlyByHlt :
    (∃ t, exec (.jmp 0x00#8) State.reset = .next t ∧ Instr.jmp 0x00#8 ≠ .hlt) ∧
      (∃ t, exec .hlt (st 0xFD#8 []) = .next t ∧ (st 0xFD#8 []).pc.toNat ≤ 253) ∧
      (∃ t, step (st 0xFD#8 [0x01#8]) = .next t ∧ t.running = false) ∧ State.reset.stop.running = false :=
  ⟨⟨_, rfl, by simp⟩, ⟨_, rfl, by decide⟩, ⟨_, rfl, by decide⟩, by decide⟩

theorem witness_ArithmeticAndFlagsAreIndependent :
    (∃ t, exec (.add 0x07#8 0x07#8) State.reset = .next t) ∧ (∃ t, exec (.mul 0x07#8 0x07#8) State.reset = .next t) ∧
      ∃ t, exec (.cmp 0x07#8 0x00#8) State.reset = .next t :=
  ⟨⟨_, rfl⟩, ⟨_, rfl⟩, ⟨_, rfl⟩⟩

/-- At the last address of each width, and both ways of JEQ and JNE. -/
theorem witness_PcEndsWhereTheRuleSays :
    (∃ t, exec .hlt (st 0xFE#8 []) = .next t ∧ t.fault = none) ∧
      (∃ t, exec (.push (regByte 7)) (st 0xFD#8 []) = .next t ∧ t.fault = none) ∧
      (∃ t, exec (.cmp (regByte 0) (regByte 7)) (st 0xFC#8 []) = .next t ∧ t.fault = none) ∧
      (∃ t, exec (.call (regByte 7)) (st 0xFD#8 []) = .next t ∧ t.fault = none) ∧
      (∃ t, exec .ret (st 0xFD#8 []) = .next t ∧ t.fault = none) ∧
      (∃ t, exec (.jmp (regByte 7)) (st 0xFD#8 []) = .next t ∧ t.fault = none) ∧
      (∃ t, exec (.jeq (regByte 7)) ((st 0xFD#8 []).setFl 0b001#3) = .next t ∧ t.fault = none) ∧
      (∃ t, exec (.jeq (regByte 7)) (st 0xFD#8 []) = .next t ∧ t.fault = none) ∧
      (∃ t, exec (.jne (regByte 7)) (st 0xFD#8 []) = .next t ∧ t.fault = none) ∧
      ∃ t, exec (.jne (regByte 7)) ((st 0xFD#8 []).setFl 0b001#3) = .next t ∧ t.fault = none :=
  ⟨⟨_, rfl, by decide⟩, ⟨_, rfl, by decide⟩, ⟨_, rfl, by decide⟩, ⟨_, rfl, by decide⟩, ⟨_, rfl, by decide⟩,
    ⟨_, rfl, by decide⟩, ⟨_, rfl, by decide⟩, ⟨_, rfl, by decide⟩, ⟨_, rfl, by decide⟩, ⟨_, rfl, by decide⟩⟩

/-- LDI reads no register and writes its own; a JEQ not taken reads none. -/
theorem witness_OnlyTheTabledRegistersAreReadAndWritten :
    (∃ t, exec (.ldi 0x07#8 0x05#8) State.reset = .next t ∧ t.fault = none) ∧
      (∃ t, exec (.jeq 0x00#8) State.reset = .next t) ∧ ¬ WritesReg (.ldi 0x07#8 0x05#8) 0 ∧
      WritesReg (.ldi 0x07#8 0x05#8) 7 ∧ ¬ ReadsReg State.reset (.ldi 0x07#8 0x05#8) 7 ∧
      ¬ ReadsReg State.reset (.jeq 0x00#8) 0 :=
  ⟨⟨_, rfl, by decide⟩, ⟨_, rfl⟩, by unfold WritesReg; decide, by unfold WritesReg; decide, by unfold ReadsReg; decide,
    by unfold ReadsReg; decide⟩

/-- The pc range of LDI, ADD, MUL, CMP and of the two commutativity clauses, at its end. -/
theorem witness_three_byte_instructions : (st 0xFC#8 []).pc.toNat ≤ 252 := by decide

/-- The pc range of PUSH, POP, CALL, JEQ, JNE, HLT and PRN, at its end. -/
theorem witness_one_and_two_byte_instructions : (st 0xFD#8 []).pc.toNat ≤ 253 := by decide

/-- The lowest legal push and call: the cell stored to is cell 0. -/
theorem witness_PushDecrementsThenStores :
    (st1 0xFD#8 [] 7 0x01#8).readReg 7 ≠ 0x00#8 ∧ (st1 0xFD#8 [] 7 0x01#8).pc.toNat ≤ 253 := by decide

theorem witness_CallPushesTheReturnAddress :
    (st1 0xFD#8 [] 7 0x01#8).readReg 7 ≠ 0x00#8 ∧ (st1 0xFD#8 [] 7 0x01#8).pc.toNat ≤ 253 := by decide

/-- The highest legal pop, and a `POP R7` at stack pointer 255. -/
theorem witness_PopLoadsThenIncrements :
    ((6 : RegIndex) ≠ 7 ∧ (st1 0xFD#8 [] 7 0xFE#8).readReg 7 ≠ 0xFF#8 ∧ (st1 0xFD#8 [] 7 0xFE#8).pc.toNat ≤ 253) ∧
      (st1 0xFD#8 [] 7 0xFF#8).memRead ((st1 0xFD#8 [] 7 0xFF#8).readReg 7) ≠ 0xFF#8 := by decide

theorem witness_RetPopsThePc : (st1 0xFD#8 [] 7 0xFE#8).readReg 7 ≠ 0xFF#8 := by decide

/-- Both flag values of JEQ and JNE, and a HLT on a machine with no fault. -/
theorem witness_JeqJneHlt : (st 0xFD#8 []).fl.getLsbD 0 = false ∧ ((st 0xFD#8 []).setFl 0b001#3).fl.getLsbD 0 = true ∧
    (st 0xFD#8 []).fault = none := by decide

theorem witness_PushThenPopRestores :
    (st1 0xFB#8 [] 7 0x01#8).readReg 7 ≠ 0x00#8 ∧ (st1 0xFB#8 [] 7 0x01#8).pc.toNat ≤ 251 := by decide

theorem witness_PushThenPopCopies : (0 : RegIndex) ≠ 7 ∧ (6 : RegIndex) ≠ 7 ∧
    (st1 0xFB#8 [] 7 0xFF#8).readReg 7 ≠ 0x00#8 ∧ (st1 0xFB#8 [] 7 0xFF#8).pc.toNat ≤ 251 := by decide

/-- The state the CALL leaves is itself one from which the RET may be executed. -/
theorem witness_CallThenRetReturns :
    ∃ t, exec (.call (regByte 1)) (st 0x08#8 []) = .next t ∧ (st 0x08#8 []).readReg 7 ≠ 0x00#8 ∧
      (t.setPc 0x14#8).readReg 7 = t.readReg 7 ∧ (t.setPc 0x14#8).memRead (t.readReg 7) = t.memRead (t.readReg 7) :=
  ⟨_, rfl, by decide, by decide, by decide⟩

/-- V-PUSH-7: the PUSH overwrites the very next opcode; and a CALL whose slot is its own target. -/
theorem witness_StoreIsSeenByTheNextFetch :
    (DecodesAt (st1 0x00#8 [0x45#8, 0x00#8, 0x01#8] 7 0x03#8) (.push (regByte 0)) ∧
      ∃ t, step (st1 0x00#8 [0x45#8, 0x00#8, 0x01#8] 7 0x03#8) = .next t ∧ t.fault = none ∧ t.pc = t.readReg 7) ∧
    (DecodesAt (st 0x00#8 [0x50#8, 0x07#8]) (.call (regByte 7)) ∧
      ∃ t, step (st 0x00#8 [0x50#8, 0x07#8]) = .next t ∧ t.fault = none ∧ t.pc = t.readReg 7 ∧ t.pc.toNat ≤ 253) :=
  ⟨⟨rfl, _, rfl, by decide, by decide⟩, ⟨rfl, _, rfl, by decide, by decide, by decide⟩⟩

theorem witness_EveryLaunchStateIsLegal : ∃ s, load [0x01#8] = .ok s ∧ s.memRead 0x00#8 = 0x01#8 := ⟨_, rfl, by decide⟩

/-- A legal state, and a step from it. -/
theorem witness_EveryStepKeepsTheStateLegal : Inv State.reset ∧ ∃ t, step State.reset = .next t :=
  ⟨⟨rfl, .inl rfl, fun _ h => (nomatch h), fun h => (nomatch h)⟩, _, rfl⟩

/-- The one-step run of the image that is a HLT. -/
theorem witness_EveryReachedStateIsLegal : ∃ t, RunOf [0x01#8] 1 t ∧ t.running = false :=
  ⟨_, ⟨_, rfl, rfl⟩, by decide⟩

end Sys2Proof.Tests
end

/-! Non-interference (10_state.md R30, R33): an update of a field that an instruction neither reads nor writes can be made
before the instruction or after it. That the field is kept is the case where the update gives it the value it has. -/

namespace Sys2Proof.Machine

/-- An update of the state that reads of the pc, the registers and memory do not see, and that can be made before or after
a fault and each write of a register, the pc or memory. -/
structure Transparent (g : State → State) : Prop where
  pc : ∀ s, (g s).pc = s.pc
  readReg : ∀ s i, (g s).readReg i = s.readReg i
  memRead : ∀ s a, (g s).memRead a = s.memRead a
  raise : ∀ s d, g (s.raise d) = (g s).raise d
  writeReg : ∀ s i v, g (s.writeReg i v) = (g s).writeReg i v
  setPc : ∀ s v, g (s.setPc v) = (g s).setPc v
  memWrite : ∀ s a v, g (s.memWrite a v) = (g s).memWrite a v

/-- What an instruction asks of a transparent update besides: HLT, PRN and CMP, that it can be made before or after their
own write (Running, output, FL); JEQ and JNE, that it keeps bit E. -/
def Ignores (g : State → State) (s : State) : Instr → Prop
  | .hlt => ∀ u, g u.stop = (g u).stop
  | .prn _ => ∀ u v, g (u.emit v) = (g u).emit v
  | .cmp _ _ => ∀ u f, g (u.setFl f) = (g u).setFl f
  | .jeq _ => (g s).flagE = s.flagE
  | .jne _ => (g s).flagE = s.flagE
  | _ => True

theorem transparent_setFl (f : FlagBits) : Transparent (State.setFl · f) :=
  ⟨fun _ => rfl, fun _ _ => rfl, fun _ _ => rfl, fun _ _ => rfl, fun _ _ _ => rfl, fun _ _ => rfl, fun _ _ _ => rfl⟩

theorem transparent_running (b : Bool) : Transparent ({ · with running := b }) :=
  ⟨fun _ => rfl, fun _ _ => rfl, fun _ _ => rfl, fun _ _ => rfl, fun _ _ _ => rfl, fun _ _ => rfl, fun _ _ _ => rfl⟩

section Transparent

variable {g : State → State} {s t u t' : State} {n : OperandNo} {v a b imm : Byte} {w : Nat} {i : Instr}

theorem Transparent.sp (hg : Transparent g) (s : State) : (g s).sp = s.sp := hg.readReg s 7

theorem Transparent.setSp (hg : Transparent g) (s : State) (v : Byte) : g (s.setSp v) = (g s).setSp v :=
  hg.writeReg s 7 v

/-! ### The shared operations -/

theorem next_map (e : t' = g u) (h : (.next u : Result) = .next t) : (.next t' : Result) = .next (g t) := by
  cases h
  rw [e]

theorem withReg_map (hg : Transparent g) {k k' : RegIndex → Result} (h : withReg n v s k = .next t)
    (hk : ∀ i, k i = .next t → k' i = .next (g t)) : withReg n v (g s) k' = .next (g t) := by
  rcases withReg_cases h with ⟨i, rfl, hi⟩ | ⟨hv, rfl⟩
  · rw [withReg_regByte, hk i hi]
  · rw [withReg_bad _ hv, hg.raise]

theorem withRegs_map (hg : Transparent g) {k k' : RegIndex → RegIndex → Result} (h : withRegs a b s k = .next t)
    (hk : ∀ i j, k i j = .next t → k' i j = .next (g t)) : withRegs a b (g s) k' = .next (g t) :=
  withReg_map hg h fun i h => withReg_map hg h (hk i)

theorem seqNext_map (hg : Transparent g) {k k' : Byte → Result} (h : seqNext w s k = .next t)
    (hk : ∀ v, k v = .next t → k' v = .next (g t)) : seqNext w (g s) k' = .next (g t) := by
  rcases seqNext_cases h with ⟨hw, h⟩ | ⟨hw, rfl⟩
  · rw [seqNext_fits _ (by rwa [hg.pc]), hk _ (by rwa [hg.pc])]
  · rw [seqNext_passes _ (by rw [hg.pc]; omega), hg.raise]

theorem spDecrement_map (hg : Transparent g) {k k' : State → Result} (h : spDecrement s u k = .next t)
    (hk : ∀ u, k u = .next t → k' (g u) = .next (g t)) : spDecrement (g s) (g u) k' = .next (g t) := by
  rcases spDecrement_cases h with ⟨hsp, h⟩ | ⟨hsp, rfl⟩
  · rw [spDecrement_ok _ (by rwa [hg.sp]), hg.sp, ← hg.setSp, hk _ h]
  · rw [spDecrement_zero _ (by rwa [hg.sp]), hg.raise]

theorem spIncrement_map (hg : Transparent g) {k k' : State → Result} (h : spIncrement s u k = .next t)
    (hk : ∀ u, k u = .next t → k' (g u) = .next (g t)) : spIncrement (g s) (g u) k' = .next (g t) := by
  rcases spIncrement_cases h with ⟨hsp, h⟩ | ⟨hsp, rfl⟩
  · rw [spIncrement_ok _ (by rwa [hg.sp]), hg.sp, ← hg.setSp, hk _ h]
  · rw [spIncrement_top _ (by rwa [hg.sp]), hg.raise]

/-! ### The instructions -/

theorem execPop_map (hg : Transparent g) (h : execPop a s = .next t) : execPop a (g s) = .next (g t) :=
  withReg_map hg h fun i h => by
    rw [hg.sp, hg.memRead, ← hg.writeReg]
    exact spIncrement_map hg h fun u h => seqNext_map hg h fun pc' => next_map (hg.setPc u pc').symm

theorem execJeq_map (hg : Transparent g) (hE : (g s).flagE = s.flagE) (h : execJeq a s = .next t) :
    execJeq a (g s) = .next (g t) :=
  withReg_map hg h fun i h => by
    rw [hE, hg.readReg]
    by_cases hs : s.flagE = true
    · rw [if_pos hs] at h ⊢
      exact next_map (hg.setPc s _).symm h
    · rw [if_neg hs] at h ⊢
      exact seqNext_map hg h fun pc' => next_map (hg.setPc s pc').symm

theorem execJne_map (hg : Transparent g) (hE : (g s).flagE = s.flagE) (h : execJne a s = .next t) :
    execJne a (g s) = .next (g t) :=
  withReg_map hg h fun i h => by
    rw [hE, hg.readReg]
    by_cases hs : s.flagE = true
    · rw [if_pos hs] at h ⊢
      exact seqNext_map hg h fun pc' => next_map (hg.setPc s pc').symm
    · rw [if_neg hs] at h ⊢
      exact next_map (hg.setPc s _).symm h

/-- An instruction does the same after an update it ignores, and the update comes through unchanged. -/
theorem exec_map (hg : Transparent g) (hi : Ignores g s i) (h : exec i s = .next t) : exec i (g s) = .next (g t) := by
  unfold exec at h ⊢
  cases i with
  | hlt => exact seqNext_map hg h fun pc' => next_map (by rw [hg.setPc, hi])
  | ldi a imm =>
    exact withReg_map hg h fun i h => seqNext_map hg h fun pc' => next_map (by rw [hg.setPc, hg.writeReg])
  | prn a =>
    exact withReg_map hg h fun i h => seqNext_map hg h fun pc' => next_map (by rw [hg.setPc, hi, hg.readReg])
  | add a b =>
    exact withRegs_map hg h fun i j h => seqNext_map hg h fun pc' =>
      next_map (by rw [hg.setPc, hg.writeReg, hg.readReg, hg.readReg])
  | mul a b =>
    exact withRegs_map hg h fun i j h => seqNext_map hg h fun pc' =>
      next_map (by rw [hg.setPc, hg.writeReg, hg.readReg, hg.readReg])
  | push a =>
    exact withReg_map hg h fun i h => spDecrement_map hg h fun u h => seqNext_map hg h fun pc' =>
      next_map (by rw [hg.setPc, hg.memWrite, hg.sp, hg.readReg])
  | pop a => exact execPop_map hg h
  | call a =>
    exact withReg_map hg h fun i h => spDecrement_map hg h fun u h => seqNext_map hg h fun ret =>
      next_map (by rw [hg.setPc, hg.memWrite, hg.sp, hg.readReg])
  | ret => exact spIncrement_map hg h fun u => next_map (by rw [hg.setPc, hg.memRead, hg.sp])
  | cmp a b =>
    exact withRegs_map hg h fun i j h => seqNext_map hg h fun pc' =>
      next_map (by rw [hg.setPc, hi, hg.readReg, hg.readReg])
  | jmp a => exact withReg_map hg h fun i => next_map (by rw [hg.setPc, hg.readReg])
  | jeq a => exact execJeq_map hg hi h
  | jne a => exact execJne_map hg hi h

/-- The frame that non-interference gives: an ignored update that does nothing before an instruction does nothing after
it. -/
theorem exec_keeps (hg : Transparent g) (hi : Ignores g s i) (hs : g s = s) (h : exec i s = .next t) : g t = t := by
  have h' := exec_map hg hi h
  rw [hs, h] at h'
  exact (Host.Outcome.next.inj h').symm

end Transparent

/-! ### The flags -/

section Flags

variable {s t : State} {i : Instr} {f : FlagBits}

/-- Every instruction but CMP ignores new flags with the same bit E. -/
theorem ignores_setFl (hcmp : ∀ a b, i ≠ .cmp a b) (hE : f.getLsbD 0 = s.fl.getLsbD 0) :
    Ignores (State.setFl · f) s i := by
  cases i with
  | cmp a b => exact absurd rfl (hcmp a b)
  | hlt => exact fun _ => rfl
  | prn a => exact fun _ _ => rfl
  | jeq a => exact hE
  | jne a => exact hE
  | _ => trivial

/-- Every instruction but CMP, JEQ and JNE ignores any new flags. -/
theorem ignores_setFl_of_not_jump (hcmp : ∀ a b, i ≠ .cmp a b) (hjeq : ∀ a, i ≠ .jeq a) (hjne : ∀ a, i ≠ .jne a) :
    Ignores (State.setFl · f) s i := by
  cases i with
  | cmp a b => exact absurd rfl (hcmp a b)
  | jeq a => exact absurd rfl (hjeq a)
  | jne a => exact absurd rfl (hjne a)
  | hlt => exact fun _ => rfl
  | prn a => exact fun _ _ => rfl
  | _ => trivial

theorem exec_keeps_fl (hcmp : ∀ a b, i ≠ .cmp a b) (h : exec i s = .next t) : t.fl = s.fl := by
  have ht : t.setFl s.fl = t := exec_keeps (transparent_setFl s.fl) (ignores_setFl hcmp rfl) rfl h
  rw [← ht, State.setFl_fl]

theorem State.pcPlus_eq_add (s : State) (w : Nat) : s.pcPlus w = s.pc + BitVec.ofNat 8 w := by
  rw [State.pcPlus, BitVec.ofNat_add, BitVec.ofNat_toNat, BitVec.setWidth_eq]

theorem execCmp_setFl (a b : RegIndex) (h : s.pc.toNat ≤ 252) :
    execCmp (regByte a) (regByte b) (s.setFl f) = execCmp (regByte a) (regByte b) s := by
  rw [execCmp_completes a b (s := s.setFl f) (by rw [State.setFl_pc]; omega), execCmp_completes a b (by omega)]
  rfl

theorem execJeq_pc (a : RegIndex) (hpc : s.pc.toNat ≤ 253) (h : execJeq (regByte a) s = .next t) :
    t.pc = if s.fl.getLsbD 0 then s.readReg a else s.pc + 2#8 := by
  change t.pc = if s.flagE then _ else _
  cases hE : s.flagE with
  | true =>
    rw [execJeq_taken a hE] at h
    cases h
    rfl
  | false =>
    rw [execJeq_falls a hE (by omega)] at h
    cases h
    exact s.pcPlus_eq_add 2

theorem execJne_pc (a : RegIndex) (hpc : s.pc.toNat ≤ 253) (h : execJne (regByte a) s = .next t) :
    t.pc = if s.fl.getLsbD 0 then s.pc + 2#8 else s.readReg a := by
  change t.pc = if s.flagE then _ else _
  cases hE : s.flagE with
  | true =>
    rw [execJne_falls a hE (by omega)] at h
    cases h
    exact s.pcPlus_eq_add 2
  | false =>
    rw [execJne_taken a hE] at h
    cases h
    rfl

end Flags

/-- Settles O21: all but CMP ignore the update of FL, JEQ and JNE when bit E is the same; that FL is kept is the update
to its own value. -/
theorem flagsAreSetByCmpAndReadByJumps : Obligations.FlagsAreSetByCmpAndReadByJumps :=
  ⟨fun _ _ _ h hcmp => exec_keeps_fl hcmp h,
    fun a b _ _ hpc => execCmp_setFl a b hpc,
    fun _ _ _ f h hcmp hE => exec_map (transparent_setFl f) (ignores_setFl hcmp hE) h,
    fun _ _ _ f h hcmp hjeq hjne => exec_map (transparent_setFl f) (ignores_setFl_of_not_jump hcmp hjeq hjne) h,
    fun a _ _ hpc h => execJeq_pc a hpc h,
    fun a _ _ hpc h => execJne_pc a hpc h⟩

/-! ### The Running flag -/

section Running

variable {s t : State} {i : Instr}

/-- Every instruction but HLT ignores the Running flag. -/
theorem ignores_running (b : Bool) (hhlt : i ≠ .hlt) : Ignores ({ · with running := b }) s i := by
  cases i with
  | hlt => exact absurd rfl hhlt
  | prn a => exact fun _ _ => rfl
  | cmp a b => exact fun _ _ => rfl
  | jeq a => exact rfl
  | jne a => exact rfl
  | _ => trivial

theorem exec_keeps_running (hhlt : i ≠ .hlt) (h : exec i s = .next t) : t.running = s.running := by
  have ht : { t with running := s.running } = t :=
    exec_keeps (transparent_running s.running) (ignores_running s.running hhlt) rfl h
  rw [← ht]

theorem execHlt_clears_running (hpc : s.pc.toNat ≤ 253) (h : execHlt s = .next t) : t.running = false := by
  rw [execHlt_completes (by omega)] at h
  cases h
  rfl

theorem running_of_step (h : step s = .next t) : s.running = true :=
  (s.status_running_iff.mp (step_cases h).1).1

theorem decodesAt_hlt_of_step_clears_running (h : step s = .next t) (ht : t.running = false) : DecodesAt s .hlt := by
  have hs := running_of_step h
  obtain ⟨-, ⟨-, rfl⟩ | ⟨-, -, rfl⟩ | ⟨-, i, hd, he⟩⟩ := step_cases h
  · rw [State.raise_running, hs] at ht
    cases ht
  · rw [State.raise_running, hs] at ht
    cases ht
  · by_cases hi : i = .hlt
    · exact hi ▸ hd
    · rw [exec_keeps_running hi he, hs] at ht
      cases ht

end Running

/-- Settles O23: every instruction but HLT, and every fault, leaves the Running flag, and a step starts with it set. -/
theorem runningIsClearedOnlyByHlt : Obligations.RunningIsClearedOnlyByHlt :=
  ⟨rfl, fun _ _ _ h hhlt => exec_keeps_running hhlt h,
    fun _ _ h hpc => execHlt_clears_running hpc h,
    fun _ _ h ht => decodesAt_hlt_of_step_clears_running h ht,
    fun _ _ hs h => absurd (running_of_step h) (by rw [hs]; decide)⟩

end Sys2Proof.Machine

/-! Memory (10_state.md R51): what a read gives after a write, after load and after reset. -/

namespace Sys2Proof.Machine

/-- Load succeeds only for an image that fits in memory, and then the launch state is reset with the image placed (R42,
R185). -/
theorem load_ok_iff {image : List Byte} {s : State} :
    load image = .ok s ↔
      image.length ≤ Config.memSize ∧ { State.reset with mem := State.reset.mem.place 0 image } = s := by
  unfold load
  split <;> simp [*]

theorem State.memRead_reset (a : Byte) : State.reset.memRead a = 0x00#8 := rfl

/-- A cell of the empty memory with an image placed from address 0 reads the image byte, or 0x00 beyond the image. -/
theorem Memory.read_place_nil (image : List Byte) (a : Nat) :
    (Memory.place [] 0 image).read a = image.getD a 0x00#8 := by
  rw [Memory.read_place, Nat.zero_add, Nat.sub_zero, Memory.read_nil]
  by_cases ha : a < image.length
  · rw [if_pos ⟨a.zero_le, ha⟩]
  · rw [if_neg fun h => ha h.2, List.getD_eq_default _ _ (Nat.le_of_not_lt ha)]

theorem memRead_of_load {image : List Byte} {s : State} (a : Byte) (h : load image = .ok s) :
    s.memRead a = image.getD a.toNat 0x00#8 := by
  obtain ⟨-, rfl⟩ := load_ok_iff.mp h
  exact Memory.read_place_nil image a.toNat

theorem State.memWrite_keepsRegs (s : State) (a v : Byte) : KeepsRegsExcept [] s (s.memWrite a v) :=
  fun i _ => s.memWrite_readReg i v a

/-- Settles O4: a read after a write by `memRead_memWrite`, the frame of a write by its field lemmas, and a read after
load from what placing the image in the empty memory of reset gives. -/
theorem readReturnsTheByteLastWritten : Obligations.ReadReturnsTheByteLastWritten :=
  ⟨fun s a v b => s.memRead_memWrite a b v,
    fun s a v => ⟨s.memWrite_keepsRegs a v, s.memWrite_pc v a, s.memWrite_fl v a, s.memWrite_running v a,
      s.memWrite_fault v a, s.memWrite_out v a⟩,
    fun _ _ a h => memRead_of_load a h,
    State.memRead_reset⟩

end Sys2Proof.Machine

/-! Dispatch (40_execution_loop.md R95; 30_encoding.md R78): which opcode bytes decode, and what a step does with the
bytes it fetched. -/

namespace Sys2Proof.Machine

/-- Whether fetched bytes are an instruction depends on the opcode byte alone. -/
theorem decodeFetched_ok_iff (ir p q : Byte) : (∃ i, decodeFetched ir p q = .ok i) ↔ ir ∈ opcodeValues :=
  ⟨fun ⟨i, hi⟩ => opcode_of_decodeFetched ir p q i hi ▸ opcode_mem i, decodeFetched_of_mem ir p q⟩

theorem exists_decodesAt_iff {s : State} : (∃ i, DecodesAt s i) ↔ s.memRead s.pc ∈ opcodeValues :=
  decodeFetched_ok_iff _ _ _

/-- The numbers below 256 that stand for a byte of a list without repetition are the values of its bytes. -/
theorem filter_ofNat_mem_perm {l : List Byte} (hl : l.Nodup) :
    ((List.range 256).filter fun n => decide (BitVec.ofNat 8 n ∈ l)).Perm (l.map BitVec.toNat) := by
  have hmap : (l.map BitVec.toNat).Nodup := hl.map fun _ _ => BitVec.eq_of_toNat_eq
  refine (List.perm_ext_iff_of_nodup (List.nodup_range.filter _) hmap).mpr fun n => ?_
  simp only [List.mem_filter, List.mem_range, decide_eq_true_eq, List.mem_map]
  constructor
  · rintro ⟨hn, hmem⟩
    exact ⟨_, hmem, BitVec.toNat_ofNat n 8 ▸ Nat.mod_eq_of_lt hn⟩
  · rintro ⟨v, hv, rfl⟩
    exact ⟨v.isLt, by simpa using hv⟩

/-- The 256 byte values are the thirteen opcode values, which differ from each other, and the others. -/
theorem illegalOpcodes_length :
    ((List.range 256).filter fun n => decide (BitVec.ofNat 8 n ∉ opcodeValues)).length = 243 := by
  have hlegal : ((List.range 256).filter fun n => decide (BitVec.ofNat 8 n ∈ opcodeValues)).length = 13 :=
    (filter_ofNat_mem_perm (by decide)).length_eq
  have hsum := (List.range 256).length_eq_length_filter_add fun n => decide (BitVec.ofNat 8 n ∈ opcodeValues)
  rw [List.length_range, hlegal] at hsum
  simp only [decide_not]
  omega

/-- Settles O11: a byte decodes exactly when it is an opcode value, so a step whose bytes are no instruction is
`step_illegal`, which raises and so changes the latch alone; one whose bytes are an instruction is `step_exec`. -/
theorem dispatchComparesTheWholeOpcodeByte : Obligations.DispatchComparesTheWholeOpcodeByte :=
  ⟨decodeFetched_ok_iff, illegalOpcodes_length, rfl,
    fun _ _ hr hpc hi => step_exec hr hpc hi,
    fun s hr hpc hno => ⟨_, step_illegal hr hpc fun h => not_exists.mpr hno (exists_decodesAt_iff.mpr h),
      s.raise_onlyLatches _⟩⟩

end Sys2Proof.Machine

/-! Arithmetic and flags (41_data_alu.md R117): which of the registers and FL an instruction of the ALU leaves. -/

namespace Sys2Proof.Machine

/-- CMP writes FL and the pc when it completes, and the latch alone when it raises one of its three faults. -/
theorem execCmp_keeps_readReg {a b : Byte} {s t : State} (h : execCmp a b s = .next t) (i : RegIndex) :
    t.readReg i = s.readReg i := by
  rcases execCmp_cases h with ⟨p, q, -, -, -, rfl⟩ | ⟨-, -, -, rfl⟩ | ⟨-, rfl⟩ | ⟨-, -, rfl⟩
  · rw [State.setPc_readReg, State.setFl_readReg]
  · rw [State.raise_readReg]
  · rw [State.raise_readReg]
  · rw [State.raise_readReg]

/-- Settles O24: every instruction but CMP keeps FL, so ADD and MUL do; CMP keeps the registers in each of its outcomes. -/
theorem arithmeticAndFlagsAreIndependent : Obligations.ArithmeticAndFlagsAreIndependent :=
  fun _ _ _ _ => ⟨exec_keeps_fl nofun, exec_keeps_fl nofun, execCmp_keeps_readReg⟩

end Sys2Proof.Machine

/-! Program load (70_reset_and_hazards.md R185): the launch state is reset in everything but memory. -/

namespace Sys2Proof.Machine

/-- Load writes memory alone. -/
theorem load_keeps_reset {image : List Byte} {s : State} (h : load image = .ok s) :
    { s with mem := State.reset.mem } = State.reset := by
  obtain ⟨-, rfl⟩ := load_ok_iff.mp h
  rfl

/-- Settles O2: an image that fits is loaded; a cell reads the image's byte, or 0x00 beyond its last byte, and load writes
memory alone. -/
theorem loadPlacesTheImage : Obligations.LoadPlacesTheImage := fun image hlen => by
  obtain ⟨s, hs⟩ : ∃ s, load image = .ok s := ⟨_, load_ok_iff.mpr ⟨hlen, rfl⟩⟩
  have hreset := load_keeps_reset hs
  refine ⟨s, hs, fun a ha => ?_, fun a ha => ?_, ?_⟩
  · rw [memRead_of_load a hs, List.getD_eq_getElem _ _ ha]
  · rw [memRead_of_load a hs, List.getD_eq_default _ _ ha]
  · rw [← hreset]
    exact ⟨fun _ => rfl, rfl, rfl, rfl, rfl, rfl⟩

end Sys2Proof.Machine

/-! Encoding and decoding are inverse (30_encoding.md R71, R73, R76): what decodes is the opcode byte and the operand
bytes of one instruction, and they decode to it whatever bytes follow. -/

namespace Sys2Proof

theorem length_encode (i : Instr) : (encode i).length = i.width := by
  cases i <;> rfl

theorem operandCount_le_two (f : Format) : f.operandCount ≤ 2 := by
  cases f <;> decide

/-- An instruction's bytes, with any bytes after them, are fetched as that instruction. -/
theorem decodeFetched_encode (i : Instr) (rest : List Byte) :
    decodeFetched i.opcode ((i.operandBytes ++ rest).getD 0 0x00#8) ((i.operandBytes ++ rest).getD 1 0x00#8) = .ok i := by
  cases i <;> rfl

/-- The operand bytes of what decodes are the first bytes after the opcode. -/
theorem operandBytes_of_decodeFetched {ir p q : Byte} {i : Instr} (h : decodeFetched ir p q = .ok i) :
    i.operandBytes = [p, q].take i.format.operandCount := by
  rcases decodeFetched_cases ir p q with h' | h' | h' | h' | h' | h' | h' | h' | h' | h' | h' | h' | h' | h' <;>
    rw [h'.2] at h <;> cases h <;> rfl

/-- Decoding a list of bytes is decoding its first three as a fetch reads them, if the list is as long as the
instruction. -/
theorem decode_cons_ok_iff {ir : Byte} {bytes rest : List Byte} {i : Instr} :
    decode (ir :: bytes) = .ok (i, rest) ↔
      decodeFetched ir (bytes.getD 0 0x00#8) (bytes.getD 1 0x00#8) = .ok i ∧ i.width ≤ (ir :: bytes).length ∧
        (ir :: bytes).drop i.width = rest := by
  cases hd : decodeFetched ir (bytes.getD 0 0x00#8) (bytes.getD 1 0x00#8) with
  | error r =>
    cases r
    rw [decode, hd]
    simp
  | ok j =>
    rw [decode, hd]
    by_cases hj : (ir :: bytes).length < j.width
    · simp only [if_pos hj, reduceCtorEq, Except.ok.injEq, false_iff]
      rintro ⟨rfl, hle, -⟩
      omega
    · simp only [if_neg hj, Except.ok.injEq, Prod.mk.injEq]
      constructor
      · rintro ⟨rfl, hrest⟩
        exact ⟨rfl, by omega, hrest⟩
      · rintro ⟨rfl, -, hrest⟩
        exact ⟨rfl, hrest⟩

/-- The first bytes of a list, at most two, as a fetch reads them. -/
theorem take_getD_pair {n : Nat} {bytes : List Byte} (hn : n ≤ 2) (hlen : n ≤ bytes.length) :
    [bytes.getD 0 0x00#8, bytes.getD 1 0x00#8].take n = bytes.take n := by
  match n, bytes, hn, hlen with
  | 0, _, _, _ => rfl
  | 1, _ :: _, _, _ => rfl
  | 2, _ :: _ :: _, _, _ => rfl

/-- Settles O7: the encoding is as long as the instruction, and it is fetched as the instruction. -/
theorem decodeInvertsEncode : Obligations.DecodeInvertsEncode := fun i rest => by
  have hlen : i.width ≤ (encode i ++ rest).length := by
    rw [List.length_append, length_encode]
    omega
  have hdrop : (encode i ++ rest).drop i.width = rest := by
    rw [← length_encode, List.drop_left]
  exact decode_cons_ok_iff.mpr ⟨decodeFetched_encode i rest, hlen, hdrop⟩

/-- Settles O8: what decodes has its own opcode in the first byte and its operands in the bytes after it. -/
theorem encodeInvertsDecode : Obligations.EncodeInvertsDecode
  | [], _, _, h => nomatch h
  | ir :: bytes, rest, i, h => by
    obtain ⟨hd, hlen, rfl⟩ := decode_cons_ok_iff.mp h
    have hcount : i.format.operandCount ≤ bytes.length := by
      rw [Instr.width, List.length_cons] at hlen
      omega
    have henc : encode i = (ir :: bytes).take i.width := by
      rw [encode, opcode_of_decodeFetched _ _ _ _ hd, operandBytes_of_decodeFetched hd,
        take_getD_pair (operandCount_le_two _) hcount, Instr.width, Nat.add_comm, List.take_succ_cons]
    rw [henc, List.take_append_drop]

end Sys2Proof

/-! What an instruction does, as two functions of the instruction and the state: the fault it raises, the first of the
order of R156, and the state it leaves when it raises none. `exec` is these two and nothing else. -/

namespace Sys2Proof.Machine

/-- The register an operand byte of 0 to 7 names. -/
def regAt (v : Byte) : RegIndex := Fin.ofNat 8 v.toNat

@[simp] theorem regAt_regByte (i : RegIndex) : regAt (regByte i) = i := by
  rw [regAt, regByte_toNat, Fin.ofNat_val_eq_self]

theorem regByte_regAt {v : Byte} (h : v.toNat < 8) : regByte (regAt v) = v := by
  rw [exists_regByte v h, regAt_regByte]

/-! ### The conditions for a fault -/

/-- The check of a register-index byte (R96, R155). -/
def indexFault (n : OperandNo) (v : Byte) : Option FaultDetail :=
  if 8 ≤ v.toNat then some (.registerIndexOutOfRange n v) else none

/-- The stack-pointer decrement (R120). -/
def underflowFault (sp : Byte) : Option FaultDetail :=
  if sp = 0x00#8 then some (.addressOutOfRange .spUnderflow) else none

/-- The stack-pointer increment (R120). -/
def overflowFault (sp : Byte) : Option FaultDetail :=
  if sp = 0xFF#8 then some (.addressOutOfRange .spOverflow) else none

/-- The sequential advance by `w` (R99). -/
def advanceFault (s : State) (w : Nat) : Option FaultDetail :=
  if 255 < s.pc.toNat + w then some (.addressOutOfRange .pcAdvance) else none

@[simp] theorem indexFault_eq_none_iff {n : OperandNo} {v : Byte} : indexFault n v = none ↔ v.toNat < 8 := by
  simp [indexFault]

@[simp] theorem underflowFault_eq_none_iff {sp : Byte} : underflowFault sp = none ↔ sp ≠ 0x00#8 := by
  simp [underflowFault]

@[simp] theorem overflowFault_eq_none_iff {sp : Byte} : overflowFault sp = none ↔ sp ≠ 0xFF#8 := by
  simp [overflowFault]

@[simp] theorem advanceFault_eq_none_iff {s : State} {w : Nat} : advanceFault s w = none ↔ s.pc.toNat + w ≤ 255 := by
  simp [advanceFault]

@[simp] theorem indexFault_eq_some_iff {n : OperandNo} {v : Byte} {d : FaultDetail} :
    indexFault n v = some d ↔ 8 ≤ v.toNat ∧ .registerIndexOutOfRange n v = d := by
  simp [indexFault]

@[simp] theorem underflowFault_eq_some_iff {sp : Byte} {d : FaultDetail} :
    underflowFault sp = some d ↔ sp = 0x00#8 ∧ .addressOutOfRange .spUnderflow = d := by
  simp [underflowFault]

@[simp] theorem overflowFault_eq_some_iff {sp : Byte} {d : FaultDetail} :
    overflowFault sp = some d ↔ sp = 0xFF#8 ∧ .addressOutOfRange .spOverflow = d := by
  simp [overflowFault]

@[simp] theorem advanceFault_eq_some_iff {s : State} {w : Nat} {d : FaultDetail} :
    advanceFault s w = some d ↔ 255 < s.pc.toNat + w ∧ .addressOutOfRange .pcAdvance = d := by
  simp [advanceFault]

/-- The fault an instruction raises in a state: the first of its conditions that holds, in the order of R156. -/
def faultOf (i : Instr) (s : State) : Option FaultDetail :=
  match i with
  | .hlt => advanceFault s 1
  | .ldi a _ => (indexFault .op1 a).or (advanceFault s 3)
  | .prn a => (indexFault .op1 a).or (advanceFault s 2)
  | .add a b => (indexFault .op1 a).or ((indexFault .op2 b).or (advanceFault s 3))
  | .mul a b => (indexFault .op1 a).or ((indexFault .op2 b).or (advanceFault s 3))
  | .push a => (indexFault .op1 a).or ((underflowFault s.sp).or (advanceFault s 2))
  | .pop a => (indexFault .op1 a).or ((overflowFault (s.popInto (regAt a)).sp).or (advanceFault s 2))
  | .call a => (indexFault .op1 a).or ((underflowFault s.sp).or (advanceFault s 2))
  | .ret => overflowFault s.sp
  | .cmp a b => (indexFault .op1 a).or ((indexFault .op2 b).or (advanceFault s 3))
  | .jmp a => indexFault .op1 a
  | .jeq a => (indexFault .op1 a).or (if s.flagE then none else advanceFault s 2)
  | .jne a => (indexFault .op1 a).or (if s.flagE then advanceFault s 2 else none)

/-- The state an instruction leaves when it raises no fault. -/
def effectOf (i : Instr) (s : State) : State :=
  match i with
  | .hlt => s.stop.setPc (s.pcPlus 1)
  | .ldi a imm => (s.writeReg (regAt a) imm).setPc (s.pcPlus 3)
  | .prn a => (s.emit (s.readReg (regAt a))).setPc (s.pcPlus 2)
  | .add a b => (s.writeReg (regAt a) (s.readReg (regAt a) + s.readReg (regAt b))).setPc (s.pcPlus 3)
  | .mul a b => (s.writeReg (regAt a) (s.readReg (regAt a) * s.readReg (regAt b))).setPc (s.pcPlus 3)
  | .push a => (s.pushed.memWrite (s.sp - 1#8) (s.pushed.readReg (regAt a))).setPc (s.pcPlus 2)
  | .pop a => ((s.popInto (regAt a)).setSp ((s.popInto (regAt a)).sp + 1#8)).setPc (s.pcPlus 2)
  | .call a => (s.pushed.memWrite (s.sp - 1#8) (s.pcPlus 2)).setPc (s.pushed.readReg (regAt a))
  | .ret => (s.setSp (s.sp + 1#8)).setPc (s.memRead s.sp)
  | .cmp a b => (s.setFl (compareFlags (s.readReg (regAt a)) (s.readReg (regAt b)))).setPc (s.pcPlus 3)
  | .jmp a => s.setPc (s.readReg (regAt a))
  | .jeq a => s.setPc (if s.flagE then s.readReg (regAt a) else s.pcPlus 2)
  | .jne a => s.setPc (if s.flagE then s.pcPlus 2 else s.readReg (regAt a))

/-! ### The shared operations: each puts its own condition before those of what follows it -/

/-- The state an instruction leaves that raises `o` if it is a fault, and has the effect `e` otherwise. -/
def State.raiseOr (s : State) (o : Option FaultDetail) (e : State) : State := o.elim e s.raise

section Layers

variable {s t e : State} {o : Option FaultDetail} {n : OperandNo} {v : Byte} {w : Nat}

theorem withReg_raiseOr {k : RegIndex → Result} (h : k (regAt v) = .next (s.raiseOr o e)) :
    withReg n v s k = .next (s.raiseOr ((indexFault n v).or o) e) := by
  by_cases hv : v.toNat < 8
  · rw [← regByte_regAt hv, withReg_regByte, h, regByte_regAt hv, indexFault_eq_none_iff.mpr hv, Option.none_or]
  · rw [withReg_bad k (by omega), indexFault_eq_some_iff.mpr ⟨by omega, rfl⟩]
    rfl

theorem withRegs_raiseOr {k : RegIndex → RegIndex → Result} {a b : Byte}
    (h : k (regAt a) (regAt b) = .next (s.raiseOr o e)) :
    withRegs a b s k = .next (s.raiseOr ((indexFault .op1 a).or ((indexFault .op2 b).or o)) e) :=
  withReg_raiseOr (withReg_raiseOr h)

theorem seqNext_raiseOr {k : Byte → Result} (h : k (s.pcPlus w) = .next e) :
    seqNext w s k = .next (s.raiseOr (advanceFault s w) e) := by
  by_cases hw : s.pc.toNat + w ≤ 255
  · rw [seqNext_fits k hw, h, advanceFault_eq_none_iff.mpr hw]
    rfl
  · rw [seqNext_passes k hw, advanceFault_eq_some_iff.mpr ⟨by omega, rfl⟩]
    rfl

theorem spDecrement_raiseOr {k : State → Result} (h : k (t.setSp (t.sp - 1#8)) = .next (s.raiseOr o e)) :
    spDecrement s t k = .next (s.raiseOr ((underflowFault t.sp).or o) e) := by
  by_cases hsp : t.sp = 0x00#8
  · rw [spDecrement_zero k hsp, underflowFault_eq_some_iff.mpr ⟨hsp, rfl⟩]
    rfl
  · rw [spDecrement_ok k hsp, h, underflowFault_eq_none_iff.mpr hsp, Option.none_or]

theorem spIncrement_raiseOr {k : State → Result} (h : k (t.setSp (t.sp + 1#8)) = .next (s.raiseOr o e)) :
    spIncrement s t k = .next (s.raiseOr ((overflowFault t.sp).or o) e) := by
  by_cases hsp : t.sp = 0xFF#8
  · rw [spIncrement_top k hsp, overflowFault_eq_some_iff.mpr ⟨hsp, rfl⟩]
    rfl
  · rw [spIncrement_ok k hsp, h, overflowFault_eq_none_iff.mpr hsp, Option.none_or]

end Layers

/-! ### The instructions -/

section Exec

variable {i : Instr} {s t : State} {d : FaultDetail}

theorem execRet_raiseOr (s : State) : execRet s = .next (s.raiseOr (faultOf .ret s) (effectOf .ret s)) := by
  rw [show faultOf .ret s = (overflowFault s.sp).or none from Option.or_none.symm]
  exact spIncrement_raiseOr rfl

theorem execJmp_raiseOr (a : Byte) (s : State) :
    execJmp a s = .next (s.raiseOr (faultOf (.jmp a) s) (effectOf (.jmp a) s)) := by
  rw [show faultOf (.jmp a) s = (indexFault .op1 a).or none from Option.or_none.symm]
  exact withReg_raiseOr rfl

theorem execJeq_raiseOr (a : Byte) (s : State) :
    execJeq a s = .next (s.raiseOr (faultOf (.jeq a) s) (effectOf (.jeq a) s)) :=
  withReg_raiseOr <| by
    by_cases hE : s.flagE = true
    · simp only [effectOf, if_pos hE]
      rfl
    · simp only [effectOf, if_neg hE]
      exact seqNext_raiseOr rfl

theorem execJne_raiseOr (a : Byte) (s : State) :
    execJne a s = .next (s.raiseOr (faultOf (.jne a) s) (effectOf (.jne a) s)) :=
  withReg_raiseOr <| by
    by_cases hE : s.flagE = true
    · simp only [effectOf, if_pos hE]
      exact seqNext_raiseOr rfl
    · simp only [effectOf, if_neg hE]
      rfl

/-- Everything an instruction does: it raises the fault `faultOf` gives, or else has the effect `effectOf` gives. -/
theorem exec_eq (i : Instr) (s : State) : exec i s = .next (s.raiseOr (faultOf i s) (effectOf i s)) := by
  unfold exec
  cases i with
  | hlt => exact seqNext_raiseOr rfl
  | ldi a imm => exact withReg_raiseOr (seqNext_raiseOr rfl)
  | prn a => exact withReg_raiseOr (seqNext_raiseOr rfl)
  | add a b => exact withRegs_raiseOr (seqNext_raiseOr rfl)
  | mul a b => exact withRegs_raiseOr (seqNext_raiseOr rfl)
  | push a => exact withReg_raiseOr (spDecrement_raiseOr (seqNext_raiseOr (by rw [State.sp_setSp]; rfl)))
  | pop a => exact withReg_raiseOr (spIncrement_raiseOr (seqNext_raiseOr rfl))
  | call a => exact withReg_raiseOr (spDecrement_raiseOr (seqNext_raiseOr (by rw [State.sp_setSp]; rfl)))
  | ret => exact execRet_raiseOr s
  | cmp a b => exact withRegs_raiseOr (seqNext_raiseOr rfl)
  | jmp a => exact execJmp_raiseOr a s
  | jeq a => exact execJeq_raiseOr a s
  | jne a => exact execJne_raiseOr a s

theorem exec_raises (h : faultOf i s = some d) : exec i s = .next (s.raise d) := by
  rw [exec_eq, h]
  rfl

theorem exec_completes (h : faultOf i s = none) : exec i s = .next (effectOf i s) := by
  rw [exec_eq, h]
  rfl

theorem exec_onlyLatches (h : faultOf i s = some d) : ∃ t, exec i s = .next t ∧ OnlyLatches d s t :=
  ⟨_, exec_raises h, s.raise_onlyLatches d⟩

/-- An instruction that answers a next state raised the fault of its conditions or completed. -/
theorem exec_cases (h : exec i s = .next t) :
    (∃ d, faultOf i s = some d ∧ t = s.raise d) ∨ (faultOf i s = none ∧ t = effectOf i s) := by
  cases hf : faultOf i s with
  | some d =>
    rw [exec_raises hf] at h
    cases h
    exact .inl ⟨d, rfl, rfl⟩
  | none =>
    rw [exec_completes hf] at h
    cases h
    exact .inr ⟨rfl, rfl⟩

/-- No instruction writes the latch but by raising a fault. -/
theorem effectOf_fault (i : Instr) (s : State) : (effectOf i s).fault = s.fault := by
  cases i <;> rfl

/-- An instruction that ends with no fault latched completed. -/
theorem exec_cases_of_no_fault (h : exec i s = .next t) (ht : t.fault = none) :
    faultOf i s = none ∧ t = effectOf i s := by
  rcases exec_cases h with ⟨d, -, rfl⟩ | h
  · cases ht
  · exact h

end Exec

end Sys2Proof.Machine

/-! Why an instruction raises (60_exceptions.md R153 to R157), one alternative for each condition. -/

namespace Sys2Proof.Machine

/-- The condition under which instruction `i` raises a fault of this detail in state `s`. -/
inductive FaultReason (i : Instr) (s : State) : FaultDetail → Prop
  /-- A register-index byte names no register. -/
  | index {n : OperandNo} {v : Byte} : (n, v) ∈ i.regFields → 8 ≤ v.toNat →
      FaultReason i s (.registerIndexOutOfRange n v)
  /-- PUSH or CALL at stack pointer 0. -/
  | underflow : i.opcode ∈ [0x45#8, 0x50#8] → s.sp = 0x00#8 → FaultReason i s (.addressOutOfRange .spUnderflow)
  /-- POP would increment 255: the popped byte for R7, the stack pointer otherwise. -/
  | overflowPop {a : Byte} : i = .pop a → a.toNat < 8 → (s.popInto (regAt a)).sp = 0xFF#8 →
      FaultReason i s (.addressOutOfRange .spOverflow)
  /-- RET at stack pointer 255. -/
  | overflowRet : i = .ret → s.sp = 0xFF#8 → FaultReason i s (.addressOutOfRange .spOverflow)
  /-- The advance of the pc would pass 255. -/
  | advance : 255 < s.pc.toNat + i.width → FaultReason i s (.addressOutOfRange .pcAdvance)

section FaultReason

variable {i : Instr} {s : State} {d : FaultDetail} {n : OperandNo} {v : Byte}

theorem reason_of_indexFault (hv : (n, v) ∈ i.regFields) (h : indexFault n v = some d) : FaultReason i s d := by
  obtain ⟨h8, rfl⟩ := indexFault_eq_some_iff.mp h
  exact .index hv h8

theorem reason_of_underflowFault (hop : i.opcode ∈ [0x45#8, 0x50#8]) (h : underflowFault s.sp = some d) :
    FaultReason i s d := by
  obtain ⟨hsp, rfl⟩ := underflowFault_eq_some_iff.mp h
  exact .underflow hop hsp

theorem reason_of_advanceFault (h : advanceFault s i.width = some d) : FaultReason i s d := by
  obtain ⟨hw, rfl⟩ := advanceFault_eq_some_iff.mp h
  exact .advance hw

theorem reason_of_f2rr {a b : Byte} (hfields : i.regFields = [(.op1, a), (.op2, b)]) (hwidth : i.width = 3)
    (h : (indexFault .op1 a).or ((indexFault .op2 b).or (advanceFault s 3)) = some d) : FaultReason i s d := by
  rcases Option.or_eq_some_iff.mp h with h | ⟨-, h⟩
  · exact reason_of_indexFault (by simp [hfields]) h
  · rcases Option.or_eq_some_iff.mp h with h | ⟨-, h⟩
    · exact reason_of_indexFault (by simp [hfields]) h
    · exact reason_of_advanceFault (hwidth ▸ h)

/-- What follows the check of the one register index of an instruction. -/
theorem reason_of_or_indexFault {a : Byte} {o : Option FaultDetail} (hfields : (.op1, a) ∈ i.regFields)
    (ho : a.toNat < 8 → o = some d → FaultReason i s d) (h : (indexFault .op1 a).or o = some d) :
    FaultReason i s d := by
  rcases Option.or_eq_some_iff.mp h with h | ⟨ha, h⟩
  · exact reason_of_indexFault hfields h
  · exact ho (indexFault_eq_none_iff.mp ha) h

/-- PUSH and CALL. -/
theorem reason_of_pushing (hop : i.opcode ∈ [0x45#8, 0x50#8]) (hwidth : i.width = 2)
    (h : (underflowFault s.sp).or (advanceFault s 2) = some d) : FaultReason i s d := by
  rcases Option.or_eq_some_iff.mp h with h | ⟨-, h⟩
  · exact reason_of_underflowFault hop h
  · exact reason_of_advanceFault (hwidth ▸ h)

/-- Every fault has its reason. -/
theorem reason_of_faultOf (h : faultOf i s = some d) : FaultReason i s d := by
  unfold faultOf at h
  cases i with
  | hlt => exact reason_of_advanceFault h
  | ldi a imm => exact reason_of_or_indexFault (.head _) (fun _ => reason_of_advanceFault) h
  | prn a => exact reason_of_or_indexFault (.head _) (fun _ => reason_of_advanceFault) h
  | add a b => exact reason_of_f2rr rfl rfl h
  | mul a b => exact reason_of_f2rr rfl rfl h
  | push a => exact reason_of_or_indexFault (.head _) (fun _ => reason_of_pushing (by simp [Instr.opcode]) rfl) h
  | pop a =>
    refine reason_of_or_indexFault (.head _) (fun ha h => ?_) h
    rcases Option.or_eq_some_iff.mp h with h | ⟨-, h⟩
    · obtain ⟨hsp, rfl⟩ := overflowFault_eq_some_iff.mp h
      exact .overflowPop rfl ha hsp
    · exact reason_of_advanceFault h
  | call a => exact reason_of_or_indexFault (.head _) (fun _ => reason_of_pushing (by simp [Instr.opcode]) rfl) h
  | ret =>
    obtain ⟨hsp, rfl⟩ := overflowFault_eq_some_iff.mp h
    exact .overflowRet rfl hsp
  | cmp a b => exact reason_of_f2rr rfl rfl h
  | jmp a => exact reason_of_indexFault (.head _) h
  | jeq a =>
    refine reason_of_or_indexFault (.head _) (fun _ h => ?_) h
    split at h
    · cases h
    · exact reason_of_advanceFault h
  | jne a =>
    refine reason_of_or_indexFault (.head _) (fun _ h => ?_) h
    split at h
    · exact reason_of_advanceFault h
    · cases h

end FaultReason

/-! ### The reasons in the bytes of the instruction -/

section Bytes

variable {i : Instr} {s : State} {v : Byte}

theorem of_op1_mem_regFields (h : (.op1, v) ∈ i.regFields) :
    i.operandBytes[0]? = some v ∧ i.opcode ≠ 0x01#8 ∧ i.opcode ≠ 0x11#8 := by
  cases i <;> simp [Instr.regFields] at h <;> simp [Instr.operandBytes, Instr.opcode, h]

theorem of_op2_mem_regFields (h : (.op2, v) ∈ i.regFields) :
    i.operandBytes[1]? = some v ∧ i.opcode ∈ [0xA0#8, 0xA2#8, 0xA7#8] := by
  cases i <;> simp [Instr.regFields] at h <;> simp [Instr.operandBytes, Instr.opcode, h]

theorem opcode_of_three_le_width (h : 3 ≤ i.width) : i.opcode ∈ [0x82#8, 0xA0#8, 0xA2#8, 0xA7#8] := by
  cases i <;> simp [Instr.width, Instr.format, Format.operandCount] at h <;> simp [Instr.opcode]

/-- Where an instruction can be fetched only the three-byte ones pass 255, and those only at 253. -/
theorem of_advance_passes (hpc : s.pc.toNat ≤ 253) (h : 255 < s.pc.toNat + i.width) :
    s.pc.toNat = 253 ∧ i.opcode ∈ [0x82#8, 0xA0#8, 0xA2#8, 0xA7#8] := by
  have hw : i.width ≤ 3 := (width_bounds i).2
  exact ⟨by omega, opcode_of_three_le_width (by omega)⟩

/-- The opcode and the operand bytes of the instruction at the pc are the bytes there. -/
theorem opcode_of_decodesAt (h : DecodesAt s i) : s.memRead s.pc = i.opcode :=
  (opcode_of_decodeFetched _ _ _ _ h).symm

theorem operandBytes_of_decodesAt (h : DecodesAt s i) :
    i.operandBytes = [s.memRead (s.pc + 1#8), s.memRead (s.pc + 2#8)].take i.format.operandCount :=
  operandBytes_of_decodeFetched h

theorem memRead_op1_of_decodesAt (h : DecodesAt s i) (hv : i.operandBytes[0]? = some v) :
    s.memRead (s.pc + 1#8) = v := by
  rw [operandBytes_of_decodesAt h, List.getElem?_take, Option.ite_none_right_eq_some] at hv
  simpa using hv.2

theorem memRead_op2_of_decodesAt (h : DecodesAt s i) (hv : i.operandBytes[1]? = some v) :
    s.memRead (s.pc + 2#8) = v := by
  rw [operandBytes_of_decodesAt h, List.getElem?_take, Option.ite_none_right_eq_some] at hv
  simpa using hv.2

/-- POP increments the popped byte for R7, and the stack pointer otherwise. -/
theorem sp_popInto_regAt (s : State) {a : Byte} (ha : a.toNat < 8) :
    (s.popInto (regAt a)).sp = if a = 0x07#8 then s.memRead s.sp else s.sp := by
  have h7 : regAt a = 7 ↔ a = 0x07#8 := by
    rw [← regByte_inj, regByte_regAt ha]
    rfl
  rw [State.sp_writeReg]
  simp only [h7]

end Bytes

end Sys2Proof.Machine

/-! The legal states (10_state.md R31, R35; 60_exceptions.md R151 to R157): launch states are legal, and every step keeps a
state legal. -/

namespace Sys2Proof.Machine

section Legal

variable {s t : State} {i : Instr} {d : FaultDetail}

/-! ### A raised fault is explained by the state -/

theorem explained_of_reason (hpc : s.pc.toNat ≤ 253) (hi : DecodesAt s i) (h : FaultReason i s d) :
    FaultExplained s d := by
  have hop := opcode_of_decodesAt hi
  cases h with
  | @index n v hv h8 =>
    cases n with
    | op1 =>
      obtain ⟨hbyte, hhlt, hret⟩ := of_op1_mem_regFields hv
      exact ⟨hpc, h8, memRead_op1_of_decodesAt hi hbyte, hop ▸ opcode_mem i, hop ▸ hhlt, hop ▸ hret⟩
    | op2 =>
      obtain ⟨hbyte, hopcode⟩ := of_op2_mem_regFields hv
      exact ⟨hpc, h8, memRead_op2_of_decodesAt hi hbyte, hop ▸ hopcode⟩
  | underflow hopcode hsp => exact ⟨hpc, hop ▸ hopcode, hsp⟩
  | @overflowPop a hpop ha hsp =>
    subst hpop
    have hbyte := memRead_op1_of_decodesAt hi (v := a) rfl
    rw [sp_popInto_regAt s ha] at hsp
    by_cases h7 : a = 0x07#8
    · rw [if_pos h7] at hsp
      exact ⟨hpc, .inl ⟨hop, hbyte.trans h7, hsp⟩⟩
    · rw [if_neg h7] at hsp
      exact ⟨hpc, .inr (.inl ⟨hop, hbyte ▸ h7, hsp⟩)⟩
  | overflowRet hret hsp =>
    subst hret
    exact ⟨hpc, .inr (.inr ⟨hop, hsp⟩)⟩
  | advance hw =>
    obtain ⟨h253, hopcode⟩ := of_advance_passes hpc hw
    exact ⟨h253, hop ▸ hopcode⟩

/-- A fault is explained by everything but the latch. -/
theorem explained_raise_iff {d' : FaultDetail} : FaultExplained (s.raise d) d' ↔ FaultExplained s d' := by
  cases d' with
  | unsupportedOperation op => exact Iff.rfl
  | addressOutOfRange kind => cases kind <;> exact Iff.rfl
  | registerIndexOutOfRange n v => cases n <;> exact Iff.rfl

theorem Inv.raise (h : Inv s) (hr : s.running = true) (hd : FaultExplained s d) : Inv (s.raise d) where
  memory := h.memory
  flags := h.flags
  latch := by
    rintro r ⟨⟩
    exact ⟨hr, rfl, explained_raise_iff.mpr hd⟩
  halt hf := absurd (hr.symm.trans hf) (by decide)

/-! ### A completed instruction -/

theorem effectOf_wf (i : Instr) (h : s.mem.wf = true) : (effectOf i s).mem.wf = true := by
  cases i with
  | push a => exact s.pushed.memWrite_wf _ _ h
  | call a => exact s.pushed.memWrite_wf _ _ h
  | _ => exact h

theorem effectOf_flagsLegal (i : Instr) (h : FlagsLegal s.fl) : FlagsLegal (effectOf i s).fl := by
  cases i with
  | cmp a b => exact compareFlags_legal _ _
  | _ => exact h

/-- HLT leaves the pc just after itself. -/
theorem halt_of_hlt (hpc : s.pc.toNat ≤ 253) (hi : DecodesAt s .hlt) :
    1 ≤ (effectOf .hlt s).pc.toNat ∧ (effectOf .hlt s).pc.toNat ≤ 254 ∧
      (effectOf .hlt s).memRead ((effectOf .hlt s).pc - 1#8) = 0x01#8 := by
  have hnext : (s.pcPlus 1).toNat = s.pc.toNat + 1 := toNat_advance (by omega)
  have hback : s.pcPlus 1 - 1#8 = s.pc := by
    rw [s.pcPlus_eq_add, BitVec.add_sub_cancel]
  show 1 ≤ (s.pcPlus 1).toNat ∧ (s.pcPlus 1).toNat ≤ 254 ∧ s.memRead (s.pcPlus 1 - 1#8) = 0x01#8
  rw [hback]
  exact ⟨by omega, by omega, opcode_of_decodesAt hi⟩

theorem Inv.completes (h : Inv s) (hr : s.status = .running) (hpc : s.pc.toNat ≤ 253) (hi : DecodesAt s i)
    (he : exec i s = .next (effectOf i s)) : Inv (effectOf i s) := by
  obtain ⟨hrun, hfault⟩ := s.status_running_iff.mp hr
  refine ⟨effectOf_wf i h.memory, effectOf_flagsLegal i h.flags, fun r hlatch => ?_, fun hstop => ?_⟩
  · rw [effectOf_fault, hfault] at hlatch
    cases hlatch
  · have hhlt : i = .hlt := by
      by_contra hne
      rw [exec_keeps_running hne he, hrun] at hstop
      cases hstop
    subst hhlt
    exact halt_of_hlt hpc hi

/-- Every step keeps a state legal: it raises a fault that the state explains, or completes an instruction. -/
theorem Inv.step (h : Inv s) (hst : step s = .next t) : Inv t := by
  obtain ⟨hr, ⟨htop, rfl⟩ | ⟨hpc, hop, rfl⟩ | ⟨hpc, i, hi, he⟩⟩ := step_cases hst
  · exact h.raise (s.status_running_iff.mp hr).1 htop
  · exact h.raise (s.status_running_iff.mp hr).1 ⟨hpc, rfl, hop⟩
  · rcases exec_cases he with ⟨d, hd, rfl⟩ | ⟨-, rfl⟩
    · exact h.raise (s.status_running_iff.mp hr).1 (explained_of_reason hpc hi (reason_of_faultOf hd))
    · exact h.completes hr hpc hi he

/-- A launch state is legal: load places the image in memory, in canonical form, and the rest is as after reset. -/
theorem inv_of_load {image : List Byte} (h : load image = .ok s) : Inv s := by
  obtain ⟨hlen, rfl⟩ := load_ok_iff.mp h
  exact {
    memory := Memory.place_wf _ 0 image State.reset_mem_wf (by rw [Nat.zero_add]; exact hlen)
    flags := .inl rfl
    latch := nofun
    halt := nofun }

/-- The state after reset is the launch state of the empty image. -/
theorem inv_reset : Inv State.reset := inv_of_load (image := []) rfl

/-- What every step keeps holds after any number of steps. -/
theorem runSteps_induction {P : State → Prop} (hstep : ∀ s t, P s → step s = .next t → P t) {n : Nat}
    (hs : P s) (h : runSteps n s = some t) : P t := by
  induction n generalizing s with
  | zero =>
    cases h
    exact hs
  | succ n ih =>
    unfold runSteps at h
    split at h
    · next u hu => exact ih (hstep s u hs hu) h
    · cases h
    · cases h

theorem inv_of_runOf {image : List Byte} {n : Nat} (h : RunOf image n t) : Inv t := by
  obtain ⟨s, hload, hrun⟩ := h
  exact runSteps_induction (fun _ _ => Inv.step) (inv_of_load hload) hrun

/-- A legal state is not both halted and faulted (R35). -/
theorem Inv.not_halted_and_faulted (h : Inv s) : ¬ (s.running = false ∧ s.fault ≠ none) := by
  rintro ⟨hstop, hfault⟩
  obtain ⟨r, hr⟩ := Option.ne_none_iff_exists'.mp hfault
  exact absurd ((h.latch r hr).1.symm.trans hstop) (by decide)

end Legal

/-- Settles O48: a fault a step raises is explained by the state, and a completed instruction keeps each clause. -/
theorem everyStepKeepsTheStateLegal : Obligations.EveryStepKeepsTheStateLegal :=
  fun _ _ h hst => h.step hst

/-- Settles O46, as the launch state of the empty image. -/
theorem resetStateIsLegal : Obligations.ResetStateIsLegal := inv_reset

/-- Settles O47, by the canonical form of an image placed in the empty memory. -/
theorem everyLaunchStateIsLegal : Obligations.EveryLaunchStateIsLegal :=
  fun _ _ h => inv_of_load h

/-- Settles O49: launch states are legal and every step keeps a state legal. -/
theorem everyReachedStateIsLegal : Obligations.EveryReachedStateIsLegal := fun _ _ _ h =>
  have hinv := inv_of_runOf h
  ⟨hinv, hinv.flags, hinv.not_halted_and_faulted⟩

end Sys2Proof.Machine

/-! The step and its faults (40_execution_loop.md R91 to R99; 60_exceptions.md R153 to R158): when a step is enabled, which
fault it raises, and that raising changes the latch alone. -/

namespace Sys2Proof.Machine

section Steps

variable {s t : State} {i : Instr} {d : FaultDetail}

/-! ### When a step is enabled -/

theorem exists_step_of_running (hr : s.status = .running) : ∃ t, step s = .next t := by
  by_cases hpc : s.pc.toNat ≤ 253
  · by_cases hop : s.memRead s.pc ∈ opcodeValues
    · obtain ⟨i, hi⟩ := exists_decodesAt_iff.mpr hop
      exact ⟨_, (step_exec hr hpc hi).trans (exec_eq i s)⟩
    · exact ⟨_, step_illegal hr hpc hop⟩
  · exact ⟨_, step_top hr (by omega)⟩

theorem exists_step_iff : (∃ t, step s = .next t) ↔ s.running = true ∧ s.fault = none :=
  ⟨fun ⟨_, h⟩ => s.status_running_iff.mp (step_cases h).1,
    fun h => exists_step_of_running (s.status_running_iff.mpr h)⟩

theorem step_onlyLatches (hr : s.status = .running) (hpc : s.pc.toNat ≤ 253) (hi : DecodesAt s i)
    (hf : faultOf i s = some d) : ∃ t, step s = .next t ∧ OnlyLatches d s t :=
  ⟨_, (step_exec hr hpc hi).trans (exec_raises hf), s.raise_onlyLatches d⟩

theorem step_completes (hr : s.status = .running) (hpc : s.pc.toNat ≤ 253) (hi : DecodesAt s i)
    (hf : faultOf i s = none) : step s = .next (effectOf i s) :=
  (step_exec hr hpc hi).trans (exec_completes hf)

theorem step_top_onlyLatches (hr : s.status = .running) (h : 254 ≤ s.pc.toNat) :
    ∃ t, step s = .next t ∧ OnlyLatches (.addressOutOfRange .fetch) s t :=
  ⟨_, step_top hr h, s.raise_onlyLatches _⟩

/-- A step that ends with a fault latched raised it. -/
theorem eq_raise_of_step (h : step s = .next t) (ht : t.fault ≠ none) : ∃ d, t = s.raise d := by
  obtain ⟨hr, ⟨-, rfl⟩ | ⟨-, -, rfl⟩ | ⟨-, i, -, he⟩⟩ := step_cases h
  · exact ⟨_, rfl⟩
  · exact ⟨_, rfl⟩
  · rcases exec_cases he with ⟨d, -, rfl⟩ | ⟨-, rfl⟩
    · exact ⟨d, rfl⟩
    · rw [effectOf_fault, (s.status_running_iff.mp hr).2] at ht
      exact absurd rfl ht

/-! ### The faults of an instruction whose register indices are read -/

theorem indexFault_or_of_lt {n : OperandNo} {v : Byte} {o : Option FaultDetail} (hv : v.toNat < 8) :
    (indexFault n v).or o = o := by
  rw [indexFault_eq_none_iff.mpr hv, Option.none_or]

theorem indexFault_or_of_le {n : OperandNo} {v : Byte} {o : Option FaultDetail} (hv : 8 ≤ v.toNat) :
    (indexFault n v).or o = some (.registerIndexOutOfRange n v) := by
  rw [indexFault_eq_some_iff.mpr ⟨hv, rfl⟩, Option.some_or]

theorem faultOf_of_bad_op1 {a : Byte} (ha : 8 ≤ a.toNat) (h : i.regFields.head? = some (.op1, a)) :
    faultOf i s = some (.registerIndexOutOfRange .op1 a) := by
  cases i <;> cases h
  case jmp => exact indexFault_eq_some_iff.mpr ⟨ha, rfl⟩
  all_goals exact indexFault_or_of_le ha

theorem faultOf_of_bad_op2 {a b : Byte} (ha : a.toNat < 8) (hb : 8 ≤ b.toNat)
    (h : i.regFields = [(.op1, a), (.op2, b)]) : faultOf i s = some (.registerIndexOutOfRange .op2 b) := by
  cases i <;> cases h
  all_goals exact (indexFault_or_of_lt ha).trans (indexFault_or_of_le hb)

theorem wellFormed_iff : WellFormed i ↔ ∀ f ∈ i.regFields, f.2.toNat < 8 := by
  simp only [WellFormed, Instr.wellFormed, List.all_eq_true, decide_eq_true_eq]

/-- A well-formed three-byte instruction can raise by its advance alone. -/
theorem faultOf_three_bytes (hwf : WellFormed i) (hop : i.opcode ∈ [0x82#8, 0xA0#8, 0xA2#8, 0xA7#8]) :
    faultOf i s = advanceFault s 3 := by
  have hfit {f} := wellFormed_iff.mp hwf f
  cases i with
  | ldi a imm => exact indexFault_or_of_lt (hfit (.head _))
  | add a b => exact (indexFault_or_of_lt (hfit (.head _))).trans (indexFault_or_of_lt (hfit (.tail _ (.head _))))
  | mul a b => exact (indexFault_or_of_lt (hfit (.head _))).trans (indexFault_or_of_lt (hfit (.tail _ (.head _))))
  | cmp a b => exact (indexFault_or_of_lt (hfit (.head _))).trans (indexFault_or_of_lt (hfit (.tail _ (.head _))))
  | _ => simp [Instr.opcode] at hop

/-- A well-formed PUSH or CALL at stack pointer 0. -/
theorem faultOf_pushing_at_zero (hwf : WellFormed i) (hop : i.opcode ∈ [0x45#8, 0x50#8]) (hsp : s.sp = 0x00#8) :
    faultOf i s = some (.addressOutOfRange .spUnderflow) := by
  have hfit {f} := wellFormed_iff.mp hwf f
  have hzero {o} : (underflowFault s.sp).or o = some (.addressOutOfRange .spUnderflow) := by
    rw [underflowFault_eq_some_iff.mpr ⟨hsp, rfl⟩, Option.some_or]
  cases i with
  | push a => exact (indexFault_or_of_lt (hfit (.head _))).trans hzero
  | call a => exact (indexFault_or_of_lt (hfit (.head _))).trans hzero
  | _ => simp [Instr.opcode] at hop

theorem faultOf_pop_at_top {a : Byte} (ha : a.toNat < 8) (hsp : (s.popInto (regAt a)).sp = 0xFF#8) :
    faultOf (.pop a) s = some (.addressOutOfRange .spOverflow) := by
  rw [faultOf, indexFault_or_of_lt ha, overflowFault_eq_some_iff.mpr ⟨hsp, rfl⟩, Option.some_or]

theorem faultOf_ret_at_top (hsp : s.sp = 0xFF#8) : faultOf .ret s = some (.addressOutOfRange .spOverflow) :=
  overflowFault_eq_some_iff.mpr ⟨hsp, rfl⟩

/-- The condition of POP's overflow by its operand: the popped byte for R7, the stack pointer for the others. -/
theorem faultOf_pop_r7_at_top (h : s.memRead s.sp = 0xFF#8) :
    faultOf (.pop 0x07#8) s = some (.addressOutOfRange .spOverflow) :=
  faultOf_pop_at_top (by decide) ((sp_popInto_regAt s (by decide)).trans h)

theorem faultOf_pop_other_at_top {a : Byte} (ha : a.toNat < 7) (hsp : s.sp = 0xFF#8) :
    faultOf (.pop a) s = some (.addressOutOfRange .spOverflow) := by
  have h7 : a ≠ 0x07#8 := by
    rintro rfl
    exact absurd ha (by decide)
  exact faultOf_pop_at_top (by omega) (((sp_popInto_regAt s (by omega)).trans (if_neg h7)).trans hsp)

/-! ### The table of R157 -/

theorem mayRaise_of_reason (hpc : s.pc.toNat ≤ 253) (h : FaultReason i s d) : MayRaise i d := by
  cases h with
  | index hv _ => cases i <;> simp [Instr.regFields] at hv <;> simp [MayRaise, hv]
  | underflow hop _ => cases i <;> simp [Instr.opcode] at hop <;> simp [MayRaise]
  | overflowPop hi _ _ =>
    subst hi
    exact .inr rfl
  | overflowRet hi _ =>
    subst hi
    rfl
  | advance hw =>
    have hop := (of_advance_passes hpc hw).2
    cases i <;> simp [Instr.opcode] at hop <;> simp [MayRaise]

/-! ### The operands of the instruction at the pc -/

theorem regFields_of_decodesAt (hi : DecodesAt s i) :
    i.regFields = [(.op1, s.memRead (s.pc + 1#8)), (.op2, s.memRead (s.pc + 2#8))].take i.regFields.length := by
  have hbytes := operandBytes_of_decodesAt hi
  cases i <;> cases hbytes <;> rfl

theorem regFields_length_pos (hhlt : i.opcode ≠ 0x01#8) (hret : i.opcode ≠ 0x11#8) :
    1 ≤ i.regFields.length := by
  cases i with
  | hlt => exact absurd rfl hhlt
  | ret => exact absurd rfl hret
  | _ => simp [Instr.regFields]

theorem regFields_length_of_f2rr (hop : i.opcode ∈ [0xA0#8, 0xA2#8, 0xA7#8]) : i.regFields.length = 2 := by
  cases i <;> simp [Instr.opcode] at hop <;> rfl

theorem head_regFields_of_decodesAt (hi : DecodesAt s i) (hhlt : i.opcode ≠ 0x01#8) (hret : i.opcode ≠ 0x11#8) :
    i.regFields.head? = some (.op1, s.memRead (s.pc + 1#8)) := by
  have hpos := regFields_length_pos hhlt hret
  rw [regFields_of_decodesAt hi, List.head?_take, if_neg (by omega)]
  rfl

theorem regFields_f2rr_of_decodesAt (hi : DecodesAt s i) (hop : i.opcode ∈ [0xA0#8, 0xA2#8, 0xA7#8]) :
    i.regFields = [(.op1, s.memRead (s.pc + 1#8)), (.op2, s.memRead (s.pc + 2#8))] := by
  rw [regFields_of_decodesAt hi, regFields_length_of_f2rr hop]
  rfl

/-- The instruction at the pc is well formed when the bytes it takes as register indices name registers. -/
theorem wellFormed_of_decodesAt (hi : DecodesAt s i)
    (ha : i.opcode ≠ 0x01#8 → i.opcode ≠ 0x11#8 → (s.memRead (s.pc + 1#8)).toNat < 8)
    (hb : i.opcode ∈ [0xA0#8, 0xA2#8, 0xA7#8] → (s.memRead (s.pc + 2#8)).toNat < 8) : WellFormed i := by
  refine wellFormed_iff.mpr fun (n, v) hv => ?_
  cases n with
  | op1 =>
    obtain ⟨hbyte, hhlt, hret⟩ := of_op1_mem_regFields hv
    exact memRead_op1_of_decodesAt hi hbyte ▸ ha hhlt hret
  | op2 =>
    obtain ⟨hbyte, hop⟩ := of_op2_mem_regFields hv
    exact memRead_op2_of_decodesAt hi hbyte ▸ hb hop

theorem exists_decodesAt_of_mem {l : List Byte} (hl : l ⊆ opcodeValues) (h : s.memRead s.pc ∈ l) :
    ∃ i, DecodesAt s i ∧ i.opcode ∈ l := by
  obtain ⟨i, hi⟩ := exists_decodesAt_iff.mpr (hl h)
  exact ⟨i, hi, opcode_of_decodesAt hi ▸ h⟩

theorem decodesAt_ret (h : s.memRead s.pc = 0x11#8) : DecodesAt s .ret := by
  rw [DecodesAt, h, decodeFetched_ret]

theorem decodesAt_pop (h : s.memRead s.pc = 0x46#8) : DecodesAt s (.pop (s.memRead (s.pc + 1#8))) := by
  rw [DecodesAt, h, decodeFetched_pop]

/-- With no condition of R156 met, no fault has a reason. -/
theorem faultOf_eq_none (hpc : s.pc.toNat ≤ 253) (hi : DecodesAt s i) (hwf : WellFormed i)
    (hunder : s.memRead s.pc ∈ [0x45#8, 0x50#8] → s.readReg 7 ≠ 0x00#8)
    (hret : s.memRead s.pc = 0x11#8 → s.readReg 7 ≠ 0xFF#8)
    (hpop : s.memRead s.pc = 0x46#8 → s.memRead (s.pc + 1#8) ≠ 0x07#8 → s.readReg 7 ≠ 0xFF#8)
    (hpop7 : s.memRead s.pc = 0x46#8 → s.memRead (s.pc + 1#8) = 0x07#8 → s.memRead (s.readReg 7) ≠ 0xFF#8)
    (hadv : s.memRead s.pc ∈ [0x82#8, 0xA0#8, 0xA2#8, 0xA7#8] → s.pc.toNat ≤ 252) : faultOf i s = none := by
  by_contra hne
  obtain ⟨d, hd⟩ := Option.ne_none_iff_exists'.mp hne
  have hreason := reason_of_faultOf hd
  have hexp := explained_of_reason hpc hi hreason
  have hover : ¬ FaultExplained s (.addressOutOfRange .spOverflow) := by
    rintro ⟨-, ⟨hop, h7, hbyte⟩ | ⟨hop, h7, hsp⟩ | ⟨hop, hsp⟩⟩
    · exact hpop7 hop h7 hbyte
    · exact hpop hop h7 hsp
    · exact hret hop hsp
  cases hreason with
  | index hv h8 => exact absurd (wellFormed_iff.mp hwf _ hv) (Nat.not_lt.mpr h8)
  | underflow => exact hunder hexp.2.1 hexp.2.2
  | overflowPop => exact hover hexp
  | overflowRet => exact hover hexp
  | advance =>
    have h252 := hadv hexp.2
    have h253 := hexp.1
    omega

end Steps

/-- Settles O14: in status Running the fetch raises, the opcode is refused, or an instruction answers a next state. -/
theorem stepIsEnabledExactlyWhenRunning : Obligations.StepIsEnabledExactlyWhenRunning := fun s =>
  ⟨exists_step_iff, fun hrun hfault => step_halted (s.status_halted_iff.mpr ⟨hrun, hfault⟩),
    fun r hr => step_faulted ((s.status_faulted_iff r).mpr hr)⟩

/-- Settles O16: the state after such a step is the one before with a fault raised, and no step is enabled in it. -/
theorem faultingStepChangesOnlyTheLatch : Obligations.FaultingStepChangesOnlyTheLatch := fun s t h ht => by
  have hrun := running_of_step h
  obtain ⟨d, rfl⟩ := eq_raise_of_step h ht
  refine ⟨⟨d, s.raise_onlyLatches d⟩, hrun, fun u hu => ?_⟩
  exact absurd (exists_step_iff.mp ⟨u, hu⟩).2 ht

/-- Settles O17: a fault raised has a reason, and the reason gives its row of the table. -/
theorem eachInstructionRaisesOnlyItsFaults : Obligations.EachInstructionRaisesOnlyItsFaults :=
  fun i s t r hpc hs h ht => by
    rcases exec_cases h with ⟨d, hd, rfl⟩ | ⟨-, rfl⟩
    · cases ht
      have hreason := reason_of_faultOf hd
      refine ⟨rfl, mayRaise_of_reason hpc hreason, ?_⟩
      rintro n v rfl
      cases hreason
      assumption
    · rw [effectOf_fault, hs] at ht
      cases ht

/-- Settles O18: the check of the first index comes before everything else, that of the second before all but the first. -/
theorem badRegisterIndexRaises : Obligations.BadRegisterIndexRaises := by
  refine ⟨fun a s i ha hi => ?_, fun a b s i ha hi => ?_, fun a b s i ha hb hi => ?_⟩
  · have hfield : i.regFields.head? = some (.op1, a) := by
      simp only [List.mem_cons, List.not_mem_nil, or_false] at hi
      rcases hi with rfl | rfl | rfl | rfl | rfl | rfl | rfl <;> rfl
    exact exec_onlyLatches (faultOf_of_bad_op1 ha hfield)
  · have hfield : i.regFields.head? = some (.op1, a) := by
      simp only [List.mem_cons, List.not_mem_nil, or_false] at hi
      rcases hi with rfl | rfl | rfl | rfl <;> rfl
    exact exec_onlyLatches (faultOf_of_bad_op1 ha hfield)
  · have hfields : i.regFields = [(.op1, a), (.op2, b)] := by
      simp only [List.mem_cons, List.not_mem_nil, or_false] at hi
      rcases hi with rfl | rfl | rfl <;> rfl
    exact exec_onlyLatches (faultOf_of_bad_op2 ha hb hfields)

/-- Settles O13: the fetch raises before any byte is looked at. -/
theorem lookaheadFaultsAtTheTopOfMemory : Obligations.LookaheadFaultsAtTheTopOfMemory :=
  fun _ hr htop => step_top_onlyLatches hr htop

/-- Settles O12: the three bytes decode as a list to what they decode to as a fetch reads them. -/
theorem stepRunsTheDecodedInstruction : Obligations.StepRunsTheDecodedInstruction :=
  fun _ _ _ hr hpc h => step_exec hr hpc (decode_cons_ok_iff.mp h).1

/-- Settles O19: with indices that name registers the advance is the only condition left. -/
theorem threeByteInstructionAt253Raises : Obligations.ThreeByteInstructionAt253Raises :=
  fun a b imm s i hpc hi => by
    obtain ⟨hwf, hop⟩ : WellFormed i ∧ i.opcode ∈ [0x82#8, 0xA0#8, 0xA2#8, 0xA7#8] := by
      simp only [List.mem_cons, List.not_mem_nil, or_false] at hi
      rcases hi with rfl | rfl | rfl | rfl <;> simp [wellFormed_iff, Instr.regFields, Instr.opcode]
    have hpasses : advanceFault s 3 = some (.addressOutOfRange .pcAdvance) :=
      advanceFault_eq_some_iff.mpr ⟨by omega, rfl⟩
    exact exec_onlyLatches ((faultOf_three_bytes hwf hop).trans hpasses)

/-- Settles O20: with an index that names a register the stack pointer is the first condition left. -/
theorem stackPointerStepsRaiseAtTheEnds : Obligations.StackPointerStepsRaiseAtTheEnds := by
  refine ⟨fun a s i hsp hi => ?_, fun a s h7 hsp => ?_, fun s hbyte => exec_onlyLatches (faultOf_pop_r7_at_top hbyte),
    fun s hsp => exec_onlyLatches (faultOf_ret_at_top hsp)⟩
  · obtain ⟨hwf, hop⟩ : WellFormed i ∧ i.opcode ∈ [0x45#8, 0x50#8] := by
      simp only [List.mem_cons, List.not_mem_nil, or_false] at hi
      rcases hi with rfl | rfl <;> simp [wellFormed_iff, Instr.regFields, Instr.opcode]
    exact exec_onlyLatches (faultOf_pushing_at_zero hwf hop hsp)
  · have ha : (regByte a).toNat < 7 := by
      have hval : a.val ≠ 7 := fun e => h7 (Fin.ext e)
      rw [regByte_toNat]
      omega
    exact exec_onlyLatches (faultOf_pop_other_at_top ha hsp)

/-- Settles O15: each clause is the first condition of the instruction at the pc that holds. -/
theorem faultsComeInTheOrderOfWork : Obligations.FaultsComeInTheOrderOfWork := by
  rintro s _ _ _ hr rfl rfl rfl
  refine ⟨step_top_onlyLatches hr, fun hpc hop => ⟨_, step_illegal hr hpc hop, s.raise_onlyLatches _⟩,
    fun hpc hop hhlt hret ha => ?_, fun hpc hop ha hb => ?_, fun hpc hop ha hsp => ?_, fun hpc hover => ?_,
    fun hpc hwide => ?_, fun hpc hop ha hb hunder hret hpop hpop7 hadv => ?_⟩
  · obtain ⟨i, hi⟩ := exists_decodesAt_iff.mpr hop
    rw [opcode_of_decodesAt hi] at hhlt hret
    exact step_onlyLatches hr hpc hi (faultOf_of_bad_op1 ha (head_regFields_of_decodesAt hi hhlt hret))
  · obtain ⟨i, hi, hop⟩ := exists_decodesAt_of_mem (by decide) hop
    exact step_onlyLatches hr hpc hi (faultOf_of_bad_op2 ha hb (regFields_f2rr_of_decodesAt hi hop))
  · obtain ⟨i, hi, hop⟩ := exists_decodesAt_of_mem (by decide) hop
    have hone : ∀ v ∈ [0x45#8, 0x50#8], v ∉ [0xA0#8, 0xA2#8, 0xA7#8] := by decide
    have hwf := wellFormed_of_decodesAt hi (fun _ _ => ha) fun h => absurd h (hone _ hop)
    exact step_onlyLatches hr hpc hi (faultOf_pushing_at_zero hwf hop hsp)
  · obtain ⟨hop, hsp⟩ | ⟨hop, ha, hsp⟩ | ⟨hop, ha, hbyte⟩ := hover
    · exact step_onlyLatches hr hpc (decodesAt_ret hop) (faultOf_ret_at_top hsp)
    · exact step_onlyLatches hr hpc (decodesAt_pop hop) (faultOf_pop_other_at_top ha hsp)
    · exact step_onlyLatches hr hpc (decodesAt_pop hop) (ha ▸ faultOf_pop_r7_at_top hbyte)
  · obtain ⟨hop, ha, hb⟩ : s.memRead s.pc ∈ [0x82#8, 0xA0#8, 0xA2#8, 0xA7#8] ∧ (s.memRead (s.pc + 1#8)).toNat < 8 ∧
        (s.memRead s.pc ∈ [0xA0#8, 0xA2#8, 0xA7#8] → (s.memRead (s.pc + 2#8)).toNat < 8) := by
      rcases hwide with ⟨hop, ha⟩ | ⟨hop, ha, hb⟩
      · exact ⟨by simp [hop], ha, by simp [hop]⟩
      · exact ⟨.tail _ hop, ha, fun _ => hb⟩
    obtain ⟨i, hi, hwide⟩ := exists_decodesAt_of_mem (by decide) hop
    have hwf := wellFormed_of_decodesAt hi (fun _ _ => ha) (opcode_of_decodesAt hi ▸ hb)
    have hpasses : advanceFault s 3 = some (.addressOutOfRange .pcAdvance) :=
      advanceFault_eq_some_iff.mpr ⟨by omega, rfl⟩
    exact step_onlyLatches hr (by omega) hi ((faultOf_three_bytes hwf hwide).trans hpasses)
  · obtain ⟨i, hi⟩ := exists_decodesAt_iff.mpr hop
    have hwf := wellFormed_of_decodesAt hi (opcode_of_decodesAt hi ▸ ha) (opcode_of_decodesAt hi ▸ hb)
    refine ⟨_, step_completes hr hpc hi (faultOf_eq_none hpc hi hwf hunder hret hpop hpop7 hadv), ?_⟩
    rw [effectOf_fault, (s.status_running_iff.mp hr).2]

end Sys2Proof.Machine

/-! What an instruction reads and writes (10_state.md R23, R36; 20_memory.md R52): the registers of the table of R23, the
one cell of the stack instructions, and an output stream that nothing reads. -/

namespace Sys2Proof.Machine

section Registers

variable {s t : State} {i : Instr} {j : RegIndex} {v : Byte}

/-- An instruction completes only when its register-index bytes name registers (R96). -/
theorem wellFormed_of_completes (hf : faultOf i s = none) : WellFormed i := by
  rw [wellFormed_iff]
  cases i <;> simp [Instr.regFields, faultOf] at hf ⊢ <;> simp [hf]

theorem regAt_ne {a : Byte} (ha : a.toNat < 8) (h : a ≠ regByte j) : regAt a ≠ j := by
  rintro rfl
  exact h (regByte_regAt ha).symm

theorem effectOf_keeps_readReg (hf : faultOf i s = none) (hw : ¬ WritesReg i j) :
    (effectOf i s).readReg j = s.readReg j := by
  have hreg {f} := wellFormed_iff.mp (wellFormed_of_completes hf) f
  cases i with
  | ldi a imm => exact State.readReg_writeReg_ne _ _ _ _ (regAt_ne (hreg (.head _)) hw)
  | add a b => exact State.readReg_writeReg_ne _ _ _ _ (regAt_ne (hreg (.head _)) hw)
  | mul a b => exact State.readReg_writeReg_ne _ _ _ _ (regAt_ne (hreg (.head _)) hw)
  | push a => exact State.readReg_writeReg_ne _ _ _ _ (Ne.symm hw)
  | pop a =>
    obtain ⟨ha, h7⟩ := not_or.mp hw
    exact (State.readReg_writeReg_ne _ _ _ _ (Ne.symm h7)).trans
      (State.readReg_writeReg_ne _ _ _ _ (regAt_ne (hreg (.head _)) ha))
  | call a => exact State.readReg_writeReg_ne _ _ _ _ (Ne.symm hw)
  | ret => exact State.readReg_writeReg_ne _ _ _ _ (Ne.symm hw)
  | _ => rfl

theorem sp_writeReg_ne (h : j ≠ 7) : (s.writeReg j v).sp = s.sp := State.readReg_writeReg_ne _ _ _ _ h

/-- A register that an instruction does not read has no influence on whether it completes. -/
theorem faultOf_writeReg (hr : ¬ ReadsReg s i j) : faultOf i (s.writeReg j v) = faultOf i s := by
  cases i with
  | push a =>
    have hsp : (s.writeReg j v).sp = s.sp := sp_writeReg_ne (not_or.mp hr).2
    simp only [faultOf, hsp]
    rfl
  | pop a =>
    have hsp : (s.writeReg j v).sp = s.sp := sp_writeReg_ne hr
    simp only [faultOf, State.sp_writeReg, hsp, State.writeReg_memRead]
    rfl
  | call a =>
    have hsp : (s.writeReg j v).sp = s.sp := sp_writeReg_ne (not_or.mp hr).2
    simp only [faultOf, hsp]
    rfl
  | ret => exact congrArg overflowFault (sp_writeReg_ne hr)
  | _ => rfl

/-- Reading a register other than the written one, by the two operand bytes. -/
theorem readReg_regAt_writeReg {a : Byte} (ha : a.toNat < 8) (h : a ≠ regByte j) :
    (s.writeReg j v).readReg (regAt a) = s.readReg (regAt a) :=
  State.readReg_writeReg_ne _ _ _ _ (regAt_ne ha h).symm

/-- A write to a register commutes with a write to the register of another operand byte. -/
theorem writeReg_regAt_comm {a w : Byte} (ha : a.toNat < 8) (h : a ≠ regByte j) :
    (s.writeReg j v).writeReg (regAt a) w = (s.writeReg (regAt a) w).writeReg j v :=
  State.writeReg_comm _ _ _ _ _ (regAt_ne ha h).symm

theorem setSp_writeReg_comm {w : Byte} (h : j ≠ 7) : (s.writeReg j v).setSp w = (s.setSp w).writeReg j v :=
  State.writeReg_comm _ _ _ _ _ h

theorem effectOf_jeq_falls {a : Byte} (hE : ¬ s.flagE = true) : effectOf (.jeq a) s = s.setPc (s.pcPlus 2) := by
  rw [effectOf, if_neg hE]

theorem effectOf_jne_falls {a : Byte} (hE : s.flagE = true) : effectOf (.jne a) s = s.setPc (s.pcPlus 2) := by
  rw [effectOf, if_pos hE]

/-- A register that an instruction neither reads nor writes can be written before it or after it. -/
theorem effectOf_writeReg (hf : faultOf i s = none) (hr : ¬ ReadsReg s i j) (hw : ¬ WritesReg i j) :
    effectOf i (s.writeReg j v) = (effectOf i s).writeReg j v := by
  have hreg {f} := wellFormed_iff.mp (wellFormed_of_completes hf) f
  cases i with
  | hlt => rfl
  | ldi a imm =>
    simp only [effectOf, writeReg_regAt_comm (hreg (.head _)) hw]
    rfl
  | prn a =>
    simp only [effectOf, readReg_regAt_writeReg (hreg (.head _)) hr]
    rfl
  | add a b =>
    obtain ⟨ha, hb⟩ := not_or.mp hr
    simp only [effectOf, readReg_regAt_writeReg (hreg (.head _)) ha, readReg_regAt_writeReg (hreg (.tail _ (.head _))) hb,
      writeReg_regAt_comm (hreg (.head _)) ha]
    rfl
  | mul a b =>
    obtain ⟨ha, hb⟩ := not_or.mp hr
    simp only [effectOf, readReg_regAt_writeReg (hreg (.head _)) ha, readReg_regAt_writeReg (hreg (.tail _ (.head _))) hb,
      writeReg_regAt_comm (hreg (.head _)) ha]
    rfl
  | push a =>
    obtain ⟨ha, h7⟩ := not_or.mp hr
    simp only [effectOf, State.pushed, sp_writeReg_ne h7, setSp_writeReg_comm h7,
      readReg_regAt_writeReg (hreg (.head _)) ha]
    rfl
  | pop a =>
    obtain ⟨ha, h7⟩ := not_or.mp hw
    simp only [effectOf, State.popInto, sp_writeReg_ne h7, State.writeReg_memRead,
      writeReg_regAt_comm (hreg (.head _)) ha, setSp_writeReg_comm h7]
    rfl
  | call a =>
    obtain ⟨ha, h7⟩ := not_or.mp hr
    simp only [effectOf, State.pushed, sp_writeReg_ne h7, setSp_writeReg_comm h7,
      readReg_regAt_writeReg (hreg (.head _)) ha]
    rfl
  | ret =>
    simp only [effectOf, sp_writeReg_ne hr, setSp_writeReg_comm hr]
    rfl
  | cmp a b =>
    obtain ⟨ha, hb⟩ := not_or.mp hr
    simp only [effectOf, readReg_regAt_writeReg (hreg (.head _)) ha, readReg_regAt_writeReg (hreg (.tail _ (.head _))) hb]
    rfl
  | jmp a =>
    simp only [effectOf, readReg_regAt_writeReg (hreg (.head _)) hr]
    rfl
  | jeq a =>
    by_cases hE : s.flagE = true
    · simp only [effectOf, readReg_regAt_writeReg (hreg (.head _)) fun ha => hr ⟨ha, hE⟩]
      rfl
    · rw [effectOf_jeq_falls hE, effectOf_jeq_falls (s := s.writeReg j v) hE]
      rfl
  | jne a =>
    by_cases hE : s.flagE = true
    · rw [effectOf_jne_falls hE, effectOf_jne_falls (s := s.writeReg j v) hE]
      rfl
    · simp only [effectOf, readReg_regAt_writeReg (hreg (.head _)) fun ha => hr ⟨ha, eq_false_of_ne_true hE⟩]
      rfl

/-- Only LDI and POP write a register without reading it, and what it held before is lost. -/
theorem effectOf_writeReg_hidden (hf : faultOf i s = none) (hr : ¬ ReadsReg s i j) (hw : WritesReg i j) :
    effectOf i (s.writeReg j v) = effectOf i s := by
  cases i with
  | ldi a imm =>
    obtain rfl : a = regByte j := hw
    simp only [effectOf, regAt_regByte, State.writeReg_writeReg]
    rfl
  | pop a =>
    obtain rfl : a = regByte j := hw.resolve_right hr
    simp only [effectOf, State.popInto, regAt_regByte, sp_writeReg_ne hr, State.writeReg_memRead, State.writeReg_writeReg]
    rfl
  | add a b => exact absurd (.inl hw) hr
  | mul a b => exact absurd (.inl hw) hr
  | push a => exact absurd (.inr hw) hr
  | call a => exact absurd (.inr hw) hr
  | ret => exact absurd hw hr
  | _ => exact hw.elim

end Registers

/-! ### Memory -/

section Memory

variable {s t : State} {i : Instr} {m : Memory}

/-- Only PUSH and CALL store. -/
theorem effectOf_mem (hpush : ∀ a, i ≠ .push a) (hcall : ∀ a, i ≠ .call a) : (effectOf i s).mem = s.mem := by
  cases i with
  | push a => exact absurd rfl (hpush a)
  | call a => exact absurd rfl (hcall a)
  | _ => rfl

theorem keepsMem_of_exec (hpush : ∀ a, i ≠ .push a) (hcall : ∀ a, i ≠ .call a) (h : exec i s = .next t) :
    KeepsMem s t := by
  intro a
  rcases exec_cases h with ⟨d, -, rfl⟩ | ⟨-, rfl⟩
  · rfl
  · rw [State.memRead, effectOf_mem hpush hcall, State.memRead]

theorem State.memWrite_keepsMemExcept (s : State) (a v : Byte) : KeepsMemExcept a s (s.memWrite a v) := fun b hb => by
  rw [State.memRead_memWrite, if_neg hb]

/-- PUSH and CALL store to the cell at the decremented stack pointer. -/
theorem effectOf_keepsMemExcept (i : Instr) (s : State) : KeepsMemExcept (s.sp - 1#8) s (effectOf i s) := by
  cases i with
  | push a => exact s.pushed.memWrite_keepsMemExcept _ _
  | call a => exact s.pushed.memWrite_keepsMemExcept _ _
  | _ => exact fun _ _ => rfl

theorem keepsMemExcept_of_exec (h : exec i s = .next t) : KeepsMemExcept (s.sp - 1#8) s t := by
  rcases exec_cases h with ⟨d, -, rfl⟩ | ⟨-, rfl⟩
  · exact fun _ _ => rfl
  · exact effectOf_keepsMemExcept i s

/-- The two instructions that load from memory. -/
def Loads (i : Instr) : Prop := (∃ a, i = .pop a) ∨ i = .ret

theorem popInto_with_mem (j : RegIndex) (hbyte : m.read s.sp.toNat = s.memRead s.sp) :
    State.popInto { s with mem := m } j = { s.popInto j with mem := m } := by
  show State.writeReg { s with mem := m } j (m.read s.sp.toNat) = _
  rw [hbyte]
  rfl

theorem faultOf_with_mem (hload : Loads i → m.read s.sp.toNat = s.memRead s.sp) :
    faultOf i { s with mem := m } = faultOf i s := by
  cases i with
  | pop a =>
    simp only [faultOf, popInto_with_mem _ (hload (.inl ⟨a, rfl⟩))]
    rfl
  | _ => rfl

theorem effectOf_with_mem (hload : Loads i → m.read s.sp.toNat = s.memRead s.sp) :
    ∃ m', effectOf i { s with mem := m } = { effectOf i s with mem := m' } := by
  cases i with
  | pop a =>
    refine ⟨m, ?_⟩
    simp only [effectOf, popInto_with_mem _ (hload (.inl ⟨a, rfl⟩))]
    rfl
  | ret =>
    refine ⟨m, ?_⟩
    show State.setPc _ (m.read s.sp.toNat) = _
    rw [hload (.inr rfl)]
    rfl
  | _ => exact ⟨_, rfl⟩

/-- An instruction does the same to everything but memory with another memory, if that holds the same byte at the stack
pointer or the instruction does not load. -/
theorem exec_with_mem (hload : Loads i → m.read s.sp.toNat = s.memRead s.sp) (h : exec i s = .next t) :
    ∃ m', exec i { s with mem := m } = .next { t with mem := m' } := by
  rcases exec_cases h with ⟨d, hd, rfl⟩ | ⟨hnone, rfl⟩
  · exact ⟨m, exec_raises ((faultOf_with_mem hload).trans hd)⟩
  · obtain ⟨m', hm'⟩ := effectOf_with_mem hload
    exact ⟨m', hm' ▸ exec_completes ((faultOf_with_mem hload).trans hnone)⟩

end Memory

/-- Settles O26: a fault depends on no register the table does not list, and neither does the effect; the register LDI or
POP writes without reading it is overwritten. -/
theorem onlyTheTabledRegistersAreReadAndWritten : Obligations.OnlyTheTabledRegistersAreReadAndWritten := by
  intro i s t h
  rcases exec_cases h with ⟨d, hd, rfl⟩ | ⟨hnone, rfl⟩
  · exact ⟨fun _ _ => rfl, fun j v hr _ => exec_raises ((faultOf_writeReg hr).trans hd), fun _ _ _ _ ht => nomatch ht⟩
  · refine ⟨fun j hw => effectOf_keeps_readReg hnone hw, fun j v hr hw => ?_, fun j v hr hw _ => ?_⟩
    · rw [exec_completes ((faultOf_writeReg hr).trans hnone), effectOf_writeReg hnone hr hw]
    · rw [exec_completes ((faultOf_writeReg hr).trans hnone), effectOf_writeReg_hidden hnone hr hw]

/-- Settles O6: what is stored is the effect of PUSH and CALL, and what another memory can change is what POP and RET
load. -/
theorem onlyStackInstructionsAccessMemory : Obligations.OnlyStackInstructionsAccessMemory := fun _ _ _ h =>
  ⟨fun hpush hcall => keepsMem_of_exec hpush hcall h, keepsMemExcept_of_exec h,
    fun hpop hret _ => exec_with_mem (fun hload => (hload.elim (fun ⟨a, ha⟩ => hpop a ha) hret).elim) h,
    fun _ hbyte => exec_with_mem (fun _ => hbyte) h⟩

/-! ### The output stream -/

section Output

variable {s t : State} {i : Instr}

theorem transparent_out (o : List Byte) : Transparent ({ · with out := o }) :=
  ⟨fun _ => rfl, fun _ _ => rfl, fun _ _ => rfl, fun _ _ => rfl, fun _ _ _ => rfl, fun _ _ => rfl, fun _ _ _ => rfl⟩

/-- Every instruction but PRN ignores the output. -/
theorem ignores_out (o : List Byte) (hprn : ∀ a, i ≠ .prn a) : Ignores ({ · with out := o }) s i := by
  cases i with
  | prn a => exact absurd rfl (hprn a)
  | hlt => exact fun _ => rfl
  | cmp a b => exact fun _ _ => rfl
  | jeq a => exact rfl
  | jne a => exact rfl
  | _ => trivial

theorem exec_keeps_out (hprn : ∀ a, i ≠ .prn a) (h : exec i s = .next t) : t.out = s.out := by
  have ht : { t with out := s.out } = t := exec_keeps (transparent_out s.out) (ignores_out s.out hprn) rfl h
  rw [← ht]

/-- What an execution appends to the output, and that it does so whatever the output was. -/
theorem exec_appends (h : exec i s = .next t) : ∃ new, t.out = s.out ++ new ∧ new.length ≤ 1 ∧
    ∀ o, exec i { s with out := o } = .next { t with out := o ++ new } := by
  by_cases hprn : ∃ a, i = .prn a
  · obtain ⟨a, rfl⟩ := hprn
    rcases exec_cases h with ⟨d, hd, rfl⟩ | ⟨hnone, rfl⟩
    · exact ⟨[], (List.append_nil _).symm, Nat.zero_le 1, fun o => by rw [List.append_nil]; exact exec_raises hd⟩
    · exact ⟨[s.readReg (regAt a)], rfl, le_rfl, fun o => exec_completes hnone⟩
  · have hprn := not_exists.mp hprn
    refine ⟨[], by rw [exec_keeps_out hprn h, List.append_nil], Nat.zero_le 1, fun o => ?_⟩
    rw [List.append_nil]
    exact exec_map (transparent_out o) (ignores_out o hprn) h

/-- A step appends at most one element, and does the same whatever the output was. -/
theorem step_appends (h : step s = .next t) : ∃ new, t.out = s.out ++ new ∧ new.length ≤ 1 ∧
    ∀ o, step { s with out := o } = .next { t with out := o ++ new } := by
  obtain ⟨hr, ⟨htop, rfl⟩ | ⟨hpc, hop, rfl⟩ | ⟨hpc, i, hi, he⟩⟩ := step_cases h
  · exact ⟨[], (List.append_nil _).symm, Nat.zero_le 1, fun o => by
      rw [List.append_nil]
      exact step_top (s := { s with out := o }) hr htop⟩
  · exact ⟨[], (List.append_nil _).symm, Nat.zero_le 1, fun o => by
      rw [List.append_nil]
      exact step_illegal (s := { s with out := o }) hr hpc hop⟩
  · obtain ⟨new, hnew, hlen, hany⟩ := exec_appends he
    exact ⟨new, hnew, hlen, fun o => (step_exec (s := { s with out := o }) hr hpc hi).trans (hany o)⟩

theorem execPrn_out (a : RegIndex) (hpc : s.pc.toNat ≤ 253) (h : execPrn (regByte a) s = .next t) :
    t.out = s.out ++ [s.readReg a] := by
  rw [execPrn_completes a (by omega)] at h
  cases h
  rfl

end Output

/-- Settles O22: `Emit` is the effect of PRN on the output, the other instructions ignore it, and a step with a fault
appends nothing. -/
theorem outputIsAppendedByPrnAndNeverRead : Obligations.OutputIsAppendedByPrnAndNeverRead :=
  ⟨rfl, fun _ _ => ⟨rfl, fun _ _ => rfl, rfl, rfl, rfl, rfl, fun _ => rfl⟩,
    fun a _ _ hpc h => execPrn_out a hpc h, fun _ _ _ h hprn => exec_keeps_out hprn h,
    fun _ _ h => step_appends h⟩

/-! ### Memory as data -/

/-- A canonical memory from an address on reads 0x00 below it. -/
theorem Memory.read_below {lo a : Nat} {m : Memory} (h : Memory.wfFrom lo m = true) (ha : a < lo) :
    m.read a = 0x00#8 := by
  induction m generalizing lo with
  | nil => rfl
  | cons c m ih =>
    obtain ⟨hlo, -, -, hm⟩ := (Memory.wfFrom_cons _ _ _).mp h
    rw [Memory.read_cons, if_neg (by omega), ih hm (by omega)]

/-- A canonical memory that has an entry reads something else than 0x00 at its first address. -/
theorem Memory.read_head_ne {lo : Nat} {c : Host.Cell} {m : Memory} (h : Memory.wfFrom lo (c :: m) = true) :
    Memory.read (c :: m) c.1 ≠ 0x00#8 := by
  rw [Memory.read_cons, if_pos rfl]
  exact ((Memory.wfFrom_cons _ _ _).mp h).2.2.1

/-- Of two canonical memories that read alike neither has its first entry below the other's. -/
theorem Memory.not_head_lt {lo lo' : Nat} {c : Host.Cell} {m m' : Memory} (h : Memory.wfFrom lo (c :: m) = true)
    (h' : Memory.wfFrom lo' m' = true) (hread : ∀ a, Memory.read (c :: m) a = m'.read a) : ¬ c.1 < lo' := fun hlt =>
  Memory.read_head_ne h ((hread c.1).trans (Memory.read_below h' hlt))

theorem Memory.wfFrom_head {lo : Nat} {c : Host.Cell} {m : Memory} (h : Memory.wfFrom lo (c :: m) = true) :
    Memory.wfFrom c.1 (c :: m) = true := by
  obtain ⟨-, hrest⟩ := (Memory.wfFrom_cons _ _ _).mp h
  exact (Memory.wfFrom_cons _ _ _).mpr ⟨le_rfl, hrest⟩

theorem Memory.eq_of_read_eq {lo lo' : Nat} {m m' : Memory} (h : Memory.wfFrom lo m = true)
    (h' : Memory.wfFrom lo' m' = true) (hread : ∀ a, m.read a = m'.read a) : m = m' := by
  induction m generalizing lo lo' m' with
  | nil =>
    cases m' with
    | nil => rfl
    | cons c' m' => exact absurd (hread c'.1).symm (Memory.read_head_ne h')
  | cons c m ih =>
    cases m' with
    | nil => exact absurd (hread c.1) (Memory.read_head_ne h)
    | cons c' m' =>
      have haddr : c.1 = c'.1 := by
        have := Memory.not_head_lt h (Memory.wfFrom_head h') hread
        have := Memory.not_head_lt h' (Memory.wfFrom_head h) fun a => (hread a).symm
        omega
      have hbyte : c.2 = c'.2 := by
        have hc := hread c.1
        rwa [Memory.read_cons, Memory.read_cons, if_pos rfl, if_pos haddr.symm] at hc
      obtain ⟨-, -, -, hm⟩ := (Memory.wfFrom_cons _ _ _).mp h
      obtain ⟨-, -, -, hm'⟩ := (Memory.wfFrom_cons _ _ _).mp h'
      have htail : ∀ a, Memory.read m a = Memory.read m' a := fun a => by
        by_cases ha : c.1 < a
        · have hc := hread a
          rwa [Memory.read_cons, Memory.read_cons, if_neg (by omega), if_neg (by omega)] at hc
        · rw [Memory.read_below hm (by omega), Memory.read_below hm' (by omega)]
      rw [Prod.ext haddr hbyte, ih hm hm' htail]

/-- A canonical memory reads 0x00 at every number that is no address. -/
theorem Memory.read_above {lo a : Nat} {m : Memory} (h : Memory.wfFrom lo m = true) (ha : 256 ≤ a) :
    m.read a = 0x00#8 := by
  induction m generalizing lo with
  | nil => rfl
  | cons c m ih =>
    obtain ⟨-, hc, -, hm⟩ := (Memory.wfFrom_cons _ _ _).mp h
    rw [Memory.read_cons, if_neg (by omega), ih hm]

/-- Settles O5: canonical memories that read alike have the same first entry, and their other entries read alike. -/
theorem memoriesThatReadAlikeAreEqual : Obligations.MemoriesThatReadAlikeAreEqual := fun m m' h h' hread =>
  Memory.eq_of_read_eq h h' fun a => by
    by_cases ha : a < 256
    · simpa [Nat.mod_eq_of_lt ha] using hread (BitVec.ofNat 8 a)
    · rw [Memory.read_above h (by omega), Memory.read_above h' (by omega)]

end Sys2Proof.Machine

/-! Each instruction by itself (41_data_alu.md to 44_system_io.md): it completes, its result, its frame, and where the pc
ends (40_execution_loop.md R98). -/

namespace Sys2Proof.Machine

/-! ### Bytes -/

theorem toNat_sub_one {v : Byte} (h : v ≠ 0x00#8) : (v - 1#8).toNat + 1 = v.toNat := by
  bv_omega

theorem toNat_add_one {v : Byte} (h : v ≠ 0xFF#8) : (v + 1#8).toNat = v.toNat + 1 := by
  bv_omega

theorem sub_one_ne_top {v : Byte} (h : v ≠ 0x00#8) : v - 1#8 ≠ 0xFF#8 := by
  bv_omega

/-! ### Where the pc ends -/

section Pc

variable {s : State} {i : Instr}

/-- An instruction that does not set the pc itself completes only where it can advance the pc by its width. -/
theorem advance_fits_of_completes (hf : faultOf i s = none) (hpc : i.setsPcDirectly = false) :
    s.pc.toNat + i.width ≤ 255 := by
  cases i <;> simp [Instr.setsPcDirectly] at hpc <;> simp [faultOf] at hf <;>
    simp [Instr.width, Instr.format, Format.operandCount, hf]

theorem effectOf_pc (hpc : i.setsPcDirectly = false) : (effectOf i s).pc = s.pcPlus i.width := by
  cases i <;> cases hpc <;> rfl

theorem toNat_pc_of_completes {t : State} (h : exec i s = .next t) (ht : t.fault = none)
    (hpc : i.setsPcDirectly = false) : t.pc.toNat = s.pc.toNat + i.width := by
  obtain ⟨hf, rfl⟩ := exec_cases_of_no_fault h ht
  rw [effectOf_pc hpc, toNat_advance (advance_fits_of_completes hf hpc)]

theorem falls_fits_of_completes {a : RegIndex} {t : State} (h : exec i s = .next t) (ht : t.fault = none)
    (hfalls : i = .jeq (regByte a) ∧ s.flagE = false ∨ i = .jne (regByte a) ∧ s.flagE = true) :
    t.pc.toNat = s.pc.toNat + 2 := by
  obtain ⟨hf, rfl⟩ := exec_cases_of_no_fault h ht
  rcases hfalls with ⟨rfl, hE⟩ | ⟨rfl, hE⟩
  · have hfits : s.pc.toNat + 2 ≤ 255 := by simpa [faultOf, hE] using hf
    rw [effectOf_jeq_falls (by simp [hE]), State.setPc_pc, toNat_advance hfits]
  · have hfits : s.pc.toNat + 2 ≤ 255 := by simpa [faultOf, hE] using hf
    rw [effectOf_jne_falls hE, State.setPc_pc, toNat_advance hfits]

end Pc

/-- Settles O25: an instruction that does not set the pc itself ends at its width, the others where they say. -/
theorem pcEndsWhereTheRuleSays : Obligations.PcEndsWhereTheRuleSays := by
  intro s t a b imm _ ht
  have heffect {i} (h : exec i s = .next t) : t = effectOf i s := (exec_cases_of_no_fault h ht).2
  refine ⟨fun h => toNat_pc_of_completes h ht rfl, fun i hi h => ?_, fun i hi h => ?_, fun h => ?_, fun h => ?_,
    fun h => ?_, fun h hE => ?_, fun h hE => ?_, fun h hE => ?_, fun h hE => ?_⟩
  · simp only [List.mem_cons, List.not_mem_nil, or_false] at hi
    rcases hi with rfl | rfl | rfl <;> exact toNat_pc_of_completes h ht rfl
  · simp only [List.mem_cons, List.not_mem_nil, or_false] at hi
    rcases hi with rfl | rfl | rfl | rfl <;> exact toNat_pc_of_completes h ht rfl
  · rw [heffect h, effectOf, regAt_regByte]
    rfl
  · rw [heffect h]
    rfl
  · rw [heffect h, effectOf, regAt_regByte]
    rfl
  · rw [heffect h, effectOf, regAt_regByte, if_pos (show s.flagE = true from hE), State.setPc_pc]
  · exact falls_fits_of_completes h ht (.inl ⟨rfl, hE⟩)
  · rw [heffect h, effectOf, regAt_regByte, if_neg (by simpa [State.flagE] using hE), State.setPc_pc]
  · exact falls_fits_of_completes h ht (.inr ⟨rfl, hE⟩)

/-! ### Frames -/

theorem State.writeReg_keepsRegs (s : State) (i : RegIndex) (v : Byte) : KeepsRegsExcept [i] s (s.writeReg i v) :=
  fun _ hj => State.readReg_writeReg_ne _ _ _ _ fun e => hj (e ▸ .head _)

theorem State.setSp_keepsRegs (s : State) (v : Byte) : KeepsRegsExcept [7] s (s.setSp v) :=
  s.writeReg_keepsRegs 7 v

/-! ### LDI, ADD, MUL and CMP -/

/-- Settles O27: the next state writes one register and the pc. -/
theorem ldiLoadsTheImmediate : Obligations.LdiLoadsTheImmediate := fun a imm s hpc =>
  ⟨_, execLdi_completes a (by omega), s.readReg_writeReg_same a imm, toNat_advance (by omega),
    s.writeReg_keepsRegs a imm, rfl, rfl, rfl, rfl, fun _ => rfl⟩

/-- Settles O28: the sum of two bytes is the sum of their values modulo 256. -/
theorem addStoresTheSumModulo256 : Obligations.AddStoresTheSumModulo256 := fun a b s hpc =>
  ⟨_, execAdd_completes a b (by omega), by rw [State.setPc_readReg, State.readReg_writeReg_same, BitVec.toNat_add],
    toNat_advance (by omega), s.writeReg_keepsRegs a _, rfl, rfl, rfl, rfl, fun _ => rfl⟩

/-- Settles O29: the product of two bytes is the product of their values modulo 256. -/
theorem mulStoresTheProductModulo256 : Obligations.MulStoresTheProductModulo256 := fun a b s hpc =>
  ⟨_, execMul_completes a b (by omega), by rw [State.setPc_readReg, State.readReg_writeReg_same, BitVec.toNat_mul],
    toNat_advance (by omega), s.writeReg_keepsRegs a _, rfl, rfl, rfl, rfl, fun _ => rfl⟩

/-- Settles O40: the sum and the product of two bytes do not depend on their order. -/
theorem addAndMulAreCommutative : Obligations.AddAndMulAreCommutative := fun a b s hpc =>
  ⟨⟨_, _, execAdd_completes a b (by omega), execAdd_completes b a (by omega), by
      simp only [State.setPc_readReg, State.readReg_writeReg_same, BitVec.add_comm]⟩,
    ⟨_, _, execMul_completes a b (by omega), execMul_completes b a (by omega), by
      simp only [State.setPc_readReg, State.readReg_writeReg_same, BitVec.mul_comm]⟩⟩

theorem compareFlags_spec (p q : Byte) :
    ((compareFlags p q).getLsbD 2 = true ↔ p.toNat < q.toNat) ∧
      ((compareFlags p q).getLsbD 1 = true ↔ q.toNat < p.toNat) ∧
      ((compareFlags p q).getLsbD 0 = true ↔ p = q) ∧
      (compareFlags p q = 0b100#3 ∨ compareFlags p q = 0b010#3 ∨ compareFlags p q = 0b001#3) := by
  rw [← BitVec.toNat_inj]
  unfold compareFlags
  rcases lt_trichotomy p.toNat q.toNat with h | h | h
  · simp [h, h.not_gt, h.ne]
  · simp [h]
  · simp [h, h.not_gt, h.ne']

/-- Settles O30: the next state writes FL, by the order of the two values, and the pc. -/
theorem cmpSetsExactlyOneFlag : Obligations.CmpSetsExactlyOneFlag := fun a b s hpc =>
  have ⟨hL, hG, hE, hone⟩ := compareFlags_spec (s.readReg a) (s.readReg b)
  ⟨_, execCmp_completes a b (by omega), hL, hG, hE, hone, toNat_advance (by omega), fun _ _ => rfl, rfl, rfl, rfl,
    fun _ => rfl⟩

/-! ### PUSH and POP -/

theorem State.readReg_pushed (s : State) (a : RegIndex) :
    s.pushed.readReg a = if a = 7 then s.readReg 7 - 1#8 else s.readReg a := by
  rw [State.readReg_setSp, State.sp_eq_readReg]
  simp only [eq_comm]

/-- Settles O31: the register stored is read after the decrement, which does not wrap above 0. -/
theorem pushDecrementsThenStores : Obligations.PushDecrementsThenStores := fun a s hsp hpc =>
  ⟨_, execPush_completes a hsp (by omega), (congrArg (·.toNat + 1) (s.sp_setSp _)).trans (toNat_sub_one hsp),
    (State.memRead_memWrite _ _ _ _).trans ((if_pos rfl).trans (s.readReg_pushed a)),
    s.pushed.memWrite_keepsMemExcept _ _, toNat_advance (by omega), s.setSp_keepsRegs _, rfl, rfl, rfl, rfl⟩

/-- The stack pointer after the load of a POP into register `a`. -/
theorem State.sp_popInto_ne (s : State) {a : RegIndex} (ha : a ≠ 7) : (s.popInto a).sp = s.sp := sp_writeReg_ne ha

theorem State.sp_popInto_r7 (s : State) : (s.popInto 7).sp = s.memRead s.sp := s.readReg_writeReg_same 7 _

/-- POP writes its register and the stack pointer. -/
theorem State.popInto_setSp_keepsRegs (s : State) (a : RegIndex) (v : Byte) :
    KeepsRegsExcept [a, 7] s ((s.popInto a).setSp v) := fun i hi => by
  obtain ⟨ha, h7⟩ : i ≠ a ∧ i ≠ 7 := by simpa using hi
  exact (State.readReg_writeReg_ne _ _ _ _ h7.symm).trans (State.readReg_writeReg_ne _ _ _ _ ha.symm)

/-- Settles O32: the byte POP increments is the popped byte for R7 and the stack pointer for the others. -/
theorem popLoadsThenIncrements : Obligations.PopLoadsThenIncrements := by
  refine ⟨fun a s ha hsp hpc => ?_, fun s hbyte hpc => ?_⟩
  · have hpop := s.sp_popInto_ne ha
    refine ⟨_, execPop_completes a (by rwa [hpop]) (by omega), ?_, ?_, toNat_advance (by omega),
      s.popInto_setSp_keepsRegs a _, rfl, rfl, rfl, rfl, fun _ => rfl⟩
    · exact (State.readReg_writeReg_ne _ _ _ _ ha.symm).trans (s.readReg_writeReg_same a _)
    · rw [hpop, ← toNat_add_one hsp]
      exact congrArg BitVec.toNat (State.sp_setSp _ _)
  · have hpop := s.sp_popInto_r7
    refine ⟨_, execPop_completes 7 (by rwa [hpop]) (by omega), ?_, toNat_advance (by omega), fun i hi => ?_,
      rfl, rfl, rfl, rfl, fun _ => rfl⟩
    · rw [hpop, ← toNat_add_one hbyte]
      exact congrArg BitVec.toNat (State.sp_setSp _ _)
    · exact s.popInto_setSp_keepsRegs 7 _ i (by simpa using hi)

/-! ### Control transfer -/

/-- Settles O33: the target is read after the decrement, and the return address is a byte up to pc 253. -/
theorem callPushesTheReturnAddress : Obligations.CallPushesTheReturnAddress := fun a s hsp hpc => by
  have hret : (s.pcPlus 2).toNat = s.pc.toNat + 2 := toNat_advance (by omega)
  refine ⟨_, execCall_completes a hsp (by omega), (congrArg (·.toNat + 1) (s.sp_setSp _)).trans (toNat_sub_one hsp), ?_,
    s.pushed.memWrite_keepsMemExcept _ _, s.readReg_pushed a, s.setSp_keepsRegs _, rfl, rfl, rfl, rfl⟩
  rw [State.setPc_memRead, State.memRead_memWrite, if_pos (by rfl), hret]

/-- Settles O34: the byte is loaded before the increment, which does not wrap below 255. -/
theorem retPopsThePc : Obligations.RetPopsThePc := fun s hsp =>
  ⟨_, execRet_completes hsp, rfl, (congrArg BitVec.toNat (s.sp_setSp _)).trans (toNat_add_one hsp),
    s.setSp_keepsRegs _, rfl, rfl, rfl, rfl, fun _ => rfl⟩

/-- Settles O35: the next state writes the pc alone. -/
theorem jmpLoadsThePc : Obligations.JmpLoadsThePc := fun a _ =>
  ⟨_, execJmp_completes a, rfl, fun _ _ => rfl, rfl, rfl, rfl, rfl, fun _ => rfl⟩

/-- Settles O36: taken with E set, and falling through with E clear. -/
theorem jeqIsTakenExactlyWhenEIsSet : Obligations.JeqIsTakenExactlyWhenEIsSet := fun a s hpc => by
  cases hE : s.fl.getLsbD 0 with
  | true =>
    exact ⟨_, execJeq_taken a hE, fun _ => rfl, nofun, fun _ _ => rfl, rfl, rfl, rfl, rfl, fun _ => rfl⟩
  | false =>
    exact ⟨_, execJeq_falls a hE (by omega), nofun, fun _ => toNat_advance (by omega), fun _ _ => rfl, rfl, rfl, rfl,
      rfl, fun _ => rfl⟩

/-- Settles O37: taken with E clear, and falling through with E set. -/
theorem jneIsTakenExactlyWhenEIsClear : Obligations.JneIsTakenExactlyWhenEIsClear := fun a s hpc => by
  cases hE : s.fl.getLsbD 0 with
  | false =>
    exact ⟨_, execJne_taken a hE, fun _ => rfl, nofun, fun _ _ => rfl, rfl, rfl, rfl, rfl, fun _ => rfl⟩
  | true =>
    exact ⟨_, execJne_falls a hE (by omega), nofun, fun _ => toNat_advance (by omega), fun _ _ => rfl, rfl, rfl, rfl,
      rfl, fun _ => rfl⟩

/-! ### HLT and PRN -/

/-- Settles O38: the machine HLT leaves is Halted when no fault was latched, and a Halted machine takes no step. -/
theorem hltStopsTheMachine : Obligations.HltStopsTheMachine := fun s hpc => by
  refine ⟨_, execHlt_completes (by omega), rfl, fun hs => ?_, toNat_advance (by omega), fun _ _ => rfl, rfl, rfl, rfl,
    fun _ => rfl⟩
  have hhalted : (s.stop.setPc (s.pcPlus 1)).status = .halted := (State.status_halted_iff _).mpr ⟨rfl, hs⟩
  exact ⟨hhalted, step_halted hhalted⟩

/-- Settles O39: the next state appends to the output and writes the pc. -/
theorem prnAppendsTheRegister : Obligations.PrnAppendsTheRegister := fun a _ hpc =>
  ⟨_, execPrn_completes a (by omega), rfl, toNat_advance (by omega), fun _ _ => rfl, rfl, rfl, rfl, fun _ => rfl⟩

/-! ### The output as text -/

/-- The decimal digits of a byte, highest first, without leading zeros (R143). -/
def decimalDigits (v : Byte) : List Nat :=
  if v.toNat < 10 then [v.toNat]
  else if v.toNat < 100 then [v.toNat / 10, v.toNat % 10]
  else [v.toNat / 100, v.toNat / 10 % 10, v.toNat % 10]

theorem renderByte_eq (v : Byte) :
    renderByte v = (decimalDigits v).map (fun d => BitVec.ofNat 8 (0x30 + d)) ++ [0x0A#8] := by
  unfold renderByte decimalDigits
  split
  · rfl
  · split <;> rfl

theorem decimalDigits_lt_ten {v : Byte} {d : Nat} (h : d ∈ decimalDigits v) : d < 10 := by
  have hv := v.isLt
  unfold decimalDigits at h
  split at h
  · simp only [List.mem_singleton] at h
    omega
  · split at h
    · simp only [List.mem_cons, List.not_mem_nil, or_false] at h
      omega
    · simp only [List.mem_cons, List.not_mem_nil, or_false] at h
      omega

theorem decimalDigits_value (v : Byte) : (decimalDigits v).foldl (fun n d => 10 * n + d) 0 = v.toNat := by
  unfold decimalDigits
  split
  · simp
  · split
    · simp only [List.foldl_cons, List.foldl_nil]
      omega
    · simp only [List.foldl_cons, List.foldl_nil]
      omega

theorem decimalDigits_ne_nil (v : Byte) : decimalDigits v ≠ [] := by
  unfold decimalDigits
  split
  · simp
  · split <;> simp

/-- Only the numeral of 0 begins with the digit 0. -/
theorem decimalDigits_head_zero {v : Byte} (h : (decimalDigits v).head? = some 0) : decimalDigits v = [0] := by
  unfold decimalDigits at h ⊢
  split at h
  · next hv =>
    rw [if_pos hv]
    simpa using h
  · split at h
    · simp only [List.head?_cons, Option.some.injEq] at h
      omega
    · simp only [List.head?_cons, Option.some.injEq] at h
      omega

/-- Settles O45, with the decimal digits of the byte. -/
theorem outputTextIsShortestDecimal : Obligations.OutputTextIsShortestDecimal := by
  refine ⟨fun v => ⟨decimalDigits v, renderByte_eq v, fun d => decimalDigits_lt_ten, decimalDigits_value v,
    decimalDigits_ne_nil v, decimalDigits_head_zero⟩, fun s v => ?_, rfl⟩
  rw [State.outText, State.emit_out, List.flatMap_append, List.flatMap_singleton]
  rfl

/-! ### Reset, load and the opcode map -/

/-- Settles O1: the fields of the reset state, and the empty memory reads 0x00 everywhere. -/
theorem resetGivesTheTableValues : Obligations.ResetGivesTheTableValues :=
  ⟨rfl, by decide, rfl, rfl, rfl, rfl, rfl, State.memRead_reset, rfl⟩

/-- Settles O3: an image that is loaded is no longer than memory. -/
theorem loadRefusesLongImages : Obligations.LoadRefusesLongImages := fun image hlen => by
  refine ⟨if_neg (Nat.not_le.mpr hlen), ?_⟩
  rintro n t ⟨s, hload, -⟩
  exact absurd (load_ok_iff.mp hload).1 (Nat.not_le.mpr hlen)

/-- Settles O9, row by row. -/
theorem opcodeMapRowByRow : Obligations.OpcodeMapRowByRow := fun p q =>
  ⟨⟨decodeFetched_hlt p q, rfl, rfl, rfl⟩, ⟨decodeFetched_ldi p q, rfl, rfl, rfl⟩, ⟨decodeFetched_prn p q, rfl, rfl, rfl⟩,
    ⟨decodeFetched_add p q, rfl, rfl, rfl⟩, ⟨decodeFetched_mul p q, rfl, rfl, rfl⟩,
    ⟨decodeFetched_push p q, rfl, rfl, rfl⟩, ⟨decodeFetched_pop p q, rfl, rfl, rfl⟩,
    ⟨decodeFetched_call p q, rfl, rfl, rfl⟩, ⟨decodeFetched_ret p q, rfl, rfl, rfl⟩,
    ⟨decodeFetched_cmp p q, rfl, rfl, rfl⟩, ⟨decodeFetched_jmp p q, rfl, rfl, rfl⟩,
    ⟨decodeFetched_jeq p q, rfl, rfl, rfl⟩, ⟨decodeFetched_jne p q, rfl, rfl, rfl⟩⟩

/-- Settles O10: each word but the last is the encoding of its instruction, with the bytes after it. -/
theorem writtenOutWordsDecode : Obligations.WrittenOutWordsDecode :=
  ⟨decodeInvertsEncode (.ldi 0x00#8 0x08#8) [], decodeInvertsEncode (.mul 0x00#8 0x01#8) [],
    decodeInvertsEncode (.prn 0x00#8) [], decodeInvertsEncode .hlt [], decodeInvertsEncode (.pop 0x02#8) [0x47#8],
    decodeInvertsEncode (.call 0x01#8) [], rfl⟩

end Sys2Proof.Machine

/-! Instructions together (42_stack.md R125, R126; 43_control_transfer.md R136; 20_memory.md R63): what PUSH and CALL leave
at the stack pointer is what the next POP, RET or fetch finds there. -/

namespace Sys2Proof.Machine

section Stack

variable {s t u : State} {a b : RegIndex}

/-! ### After a PUSH -/

/-- The state a PUSH of register `b` leaves. -/
abbrev State.afterPush (s : State) (b : RegIndex) : State :=
  (s.pushed.memWrite (s.sp - 1#8) (s.pushed.readReg b)).setPc (s.pcPlus 2)

theorem State.afterPush_sp (s : State) (b : RegIndex) : (s.afterPush b).sp = s.sp - 1#8 := s.sp_setSp _

theorem State.afterPush_memRead_sp (s : State) (b : RegIndex) :
    (s.afterPush b).memRead (s.sp - 1#8) = s.pushed.readReg b :=
  (State.memRead_memWrite _ _ _ _).trans (if_pos rfl)

theorem State.afterPush_pc (h : s.pc.toNat + 2 ≤ 255) : (s.afterPush b).pc.toNat = s.pc.toNat + 2 := toNat_advance h

/-- The state a PUSH of register `b` and a POP into register `a` leave when the POP increments the pointer the PUSH
left. -/
abbrev State.afterPushPop (s : State) (b a : RegIndex) : State :=
  (((s.afterPush b).popInto a).setSp s.sp).setPc ((s.afterPush b).pcPlus 2)

/-- A POP after a PUSH completes when the byte it increments is the pointer the PUSH left. -/
theorem execPop_after_push (hsp : s.sp ≠ 0x00#8) (hpc : s.pc.toNat ≤ 251)
    (hpop : ((s.afterPush b).popInto a).sp = s.sp - 1#8) :
    execPop (regByte a) (s.afterPush b) = .next (s.afterPushPop b a) := by
  have hpc' : (s.afterPush b).pc.toNat + 2 ≤ 255 := by
    rw [State.afterPush_pc (by omega)]
    omega
  rw [execPop_completes a (by rw [hpop]; exact sub_one_ne_top hsp) hpc', hpop, BitVec.sub_add_cancel]

theorem State.readReg_afterPushPop_r7 (s : State) (b a : RegIndex) : (s.afterPushPop b a).readReg 7 = s.sp :=
  State.sp_setSp _ _

/-- The popped register holds what was pushed. -/
theorem State.readReg_afterPushPop_same (s : State) (b : RegIndex) (ha : a ≠ 7) :
    (s.afterPushPop b a).readReg a = s.pushed.readReg b :=
  calc (s.afterPushPop b a).readReg a
    _ = ((s.afterPush b).popInto a).readReg a := State.readReg_writeReg_ne _ _ _ _ ha.symm
    _ = (s.afterPush b).memRead (s.afterPush b).sp := State.readReg_writeReg_same _ _ _
    _ = s.pushed.readReg b := by rw [State.afterPush_sp, State.afterPush_memRead_sp]

theorem State.afterPushPop_keepsRegs (s : State) (b a : RegIndex) : KeepsRegsExcept [a, 7] s (s.afterPushPop b a) :=
  fun i hi =>
    calc (s.afterPushPop b a).readReg i
      _ = (s.afterPush b).readReg i := (s.afterPush b).popInto_setSp_keepsRegs a _ i hi
      _ = s.readReg i := s.setSp_keepsRegs _ i fun h => hi (.tail _ h)

theorem State.afterPushPop_pc (hpc : s.pc.toNat ≤ 251) : (s.afterPushPop b a).pc.toNat = s.pc.toNat + 4 := by
  have hpush : (s.afterPush b).pc.toNat = s.pc.toNat + 2 := State.afterPush_pc (by omega)
  exact (toNat_advance (by omega)).trans (by omega)

/-! ### After a CALL -/

/-- A RET from a state with the stack pointer a CALL left and the byte it stored there. -/
theorem execRet_after_call (hsp : s.sp ≠ 0x00#8) (hu : u.sp = s.sp - 1#8) (hslot : u.memRead (s.sp - 1#8) = s.pcPlus 2) :
    execRet u = .next ((u.setSp s.sp).setPc (s.pcPlus 2)) := by
  rw [execRet_completes (by rw [hu]; exact sub_one_ne_top hsp), hu, hslot, BitVec.sub_add_cancel]

/-! ### The next fetch -/

/-- The byte that PUSH and CALL store is read back as the byte at the new stack pointer. -/
theorem memRead_effectOf_push (s : State) (a : RegIndex) :
    (effectOf (.push (regByte a)) s).memRead (s.sp - 1#8) = (effectOf (.push (regByte a)) s).readReg a := by
  rw [effectOf, regAt_regByte]
  exact s.afterPush_memRead_sp a

theorem toNat_memRead_effectOf_call (a : RegIndex) (hf : faultOf (.call (regByte a)) s = none) :
    ((effectOf (.call (regByte a)) s).memRead (s.sp - 1#8)).toNat = s.pc.toNat + 2 := by
  obtain ⟨-, hf⟩ := Option.or_eq_none_iff.mp hf
  obtain ⟨-, hf⟩ := Option.or_eq_none_iff.mp hf
  have hfits := advanceFault_eq_none_iff.mp hf
  rw [effectOf, State.setPc_memRead, State.memRead_memWrite, if_pos rfl, toNat_advance hfits]

end Stack

/-- Settles O41: the POP finds the pointer the PUSH left, for R7 as the byte pushed and for the others as the stack
pointer. -/
theorem pushThenPopRestores : Obligations.PushThenPopRestores := fun a s hsp hpc => by
  have hpop : ((s.afterPush a).popInto a).sp = s.sp - 1#8 := by
    by_cases ha : a = 7
    · subst ha
      rw [State.sp_popInto_r7, State.afterPush_sp, State.afterPush_memRead_sp]
      exact s.sp_setSp _
    · rw [State.sp_popInto_ne _ ha, State.afterPush_sp]
  refine ⟨_, _, execPush_completes a hsp (by omega), execPop_after_push hsp hpc hpop, fun i _ => ?_,
    State.afterPushPop_pc hpc, s.pushed.memWrite_keepsMemExcept _ _, ?_⟩
  · by_cases hi : i = 7
    · rw [hi, s.readReg_afterPushPop_r7, State.sp_eq_readReg]
    · by_cases ha : i = a
      · rw [ha, s.readReg_afterPushPop_same _ (ha ▸ hi), s.readReg_pushed, if_neg (ha ▸ hi)]
      · exact s.afterPushPop_keepsRegs a a i (by simp [ha, hi])
  · exact (s.afterPush_memRead_sp a).trans (s.readReg_pushed a)

/-- Settles O42: neither register is the stack pointer, so the POP increments the pointer the PUSH left. -/
theorem pushThenPopCopies : Obligations.PushThenPopCopies := fun a b s ha hb hsp hpc => by
  have hpop : ((s.afterPush b).popInto a).sp = s.sp - 1#8 := by
    rw [State.sp_popInto_ne _ ha, State.afterPush_sp]
  refine ⟨_, _, execPush_completes b hsp (by omega), execPop_after_push hsp hpc hpop, ?_,
    s.readReg_afterPushPop_r7 b a, fun i hi => ?_⟩
  · rw [s.readReg_afterPushPop_same b ha, s.readReg_pushed, if_neg hb]
  · by_cases h7 : i = 7
    · rw [h7, s.readReg_afterPushPop_r7, State.sp_eq_readReg]
    · exact s.afterPushPop_keepsRegs b a i (by simpa [h7] using hi)

/-- Settles O43: the RET loads the return address and increments the pointer the CALL decremented. -/
theorem callThenRetReturns : Obligations.CallThenRetReturns := fun a s hsp hpc => by
  refine ⟨_, execCall_completes a hsp (by omega), fun u hu hslot => ?_⟩
  have hptr : (s.pushed.memWrite (s.sp - 1#8) (s.pcPlus 2)).readReg 7 = s.sp - 1#8 := s.sp_setSp _
  rw [State.setPc_readReg, hptr] at hu hslot
  rw [State.setPc_memRead, State.memRead_memWrite, if_pos rfl] at hslot
  exact ⟨_, execRet_after_call hsp hu hslot, toNat_advance (by omega), u.sp_setSp _⟩

/-- Settles O44: each byte of the fetch is read from the state the instruction left, in which only the cell at the new stack
pointer was stored to. -/
theorem storeIsSeenByTheNextFetch : Obligations.StoreIsSeenByTheNextFetch := by
  intro s t a i hi hr hpc hdec hstep ht htpc
  rw [step_exec hr hpc hdec] at hstep
  obtain ⟨hf, rfl⟩ := exec_cases_of_no_fault hstep ht
  have hkeeps := effectOf_keepsMemExcept i s
  simp only [List.mem_cons, List.not_mem_nil, or_false] at hi
  have hptr : (effectOf i s).readReg 7 = s.sp - 1#8 := by
    rcases hi with rfl | rfl <;> exact s.sp_setSp _
  rw [hptr]
  refine ⟨_, fetch_ok htpc, fun b byte hread => ?_⟩
  obtain rfl : byte = (effectOf i s).memRead b := by
    rcases hread with ⟨rfl, h⟩ | ⟨rfl, h⟩ | ⟨rfl, h⟩ <;> exact h
  refine ⟨fun hb => hkeeps b hb, ?_, ?_⟩
  · rintro rfl rfl
    exact memRead_effectOf_push s a
  · rintro rfl rfl
    exact toNat_memRead_effectOf_call a hf

end Sys2Proof.Machine
